-- ==== Sys2Proof/Word.lean ====
section
/-! DEFINITION. The words of the FE25519 engine: bytes, limbs, command words and the two shapes of a field
element (spec/00_scope.md R9, R11, R16). -/

namespace Sys2Proof

/-- `u8`: one byte of the packed-element memory (R11). -/
abbrev Byte := BitVec 8

/-- `i64`: one limb, 64-bit two's complement; its integer value is `BitVec.toInt` (R11, R21). -/
abbrev Limb := BitVec 64

/-- One command word (R60). -/
abbrev CmdWord := BitVec 16

/-- A byte address of PM, 0x00 to 0xFF: an address of 0x100 or more cannot be formed (R40, R41). -/
abbrev Addr := BitVec 8

/-- A limb vector, limb 0 first: the content of one element register (R16, R21). -/
abbrev Elem := Vector Limb 16

/-- A packed element, byte 0 first: the content of one slot of PM (R18, R27). -/
abbrev Packed := Vector Byte 32

/-- An element register number, the 3-bit field of a command (R20, R63). -/
abbrev EReg := Fin 8

/-- A slot number, the 3-bit field of a command (R27, R63). -/
abbrev Slot := Fin 8

end Sys2Proof
end

