-- ==== Sys2Proof/Config.lean ====
section
/-! DEFINITION. What is fixed for the engine, and the values its spec leaves open (spec/00_scope.md R9, R10). -/

namespace Sys2Proof

/-- The eight opcodes, in the order of the opcode map (R61). -/
inductive Opcode where
  | unpack
  | pack
  | add
  | sub
  | mul
  | carry
  | inv
  | swap
  deriving DecidableEq, Repr

namespace Config

/-- The modulus `p = 2^255 - 19`; not configurable (R3). -/
def p : Nat := 2 ^ 255 - 19

/-- `NE`, the number of element registers: 8 here (R10, R20; log entry 9). -/
def numRegs : Nat := 8

/-- `NP`, the number of 32-byte slots of PM: 8 here (R10, R27; log entry 9). -/
def numSlots : Nat := 8

/-- `LAT(op)`: OPEN, one finite number per opcode and a function of the opcode alone, so that it is the same for all
data, register numbers, slot numbers and swap bits (R178, R179). No body: nothing can be proved about its value
(log entry 10). -/
opaque latency : Opcode → Nat

/-- FREE VALUE: limb `i` of `E[r]` after a Reset transaction (R30, R170). It may depend on which reset it is (`draw`), on
the command word the reset abandoned (`cmd`), and on all that E and PM held before, because the spec promises neither
erasure nor change (R171). No body (log entry 3). -/
opaque resetLimb (draw : Nat) (cmd : Option CmdWord) (e : Vector Elem 8) (pm : List (Nat × Byte))
    (r : EReg) (i : Fin 16) : Limb

/-- FREE VALUE: byte `a` of PM after a Reset transaction, as `resetLimb` is for a limb (R30, R170, R171). No body
(log entry 3). -/
opaque resetByte (draw : Nat) (cmd : Option CmdWord) (e : Vector Elem 8) (pm : List (Nat × Byte))
    (a : Addr) : Byte

end Config

end Sys2Proof
end

