-- ==== Sys2Proof/Syntax.lean ====
section
/-! DEFINITION. The commands of the engine, one constructor per row of spec/opcode_table.json (R61, R62). -/

namespace Sys2Proof

/-- One command. `d` is the destination, `a` and `b` are the sources, `k` is the swap bit (R60, R62, R63). -/
inductive Instr where
  /-- `UNPACK Ed, Pa` (R81). -/
  | unpack (d : EReg) (a : Slot)
  /-- `PACK Pd, Ea` (R87). -/
  | pack (d : Slot) (a : EReg)
  /-- `ADD Ed, Ea, Eb` (R101). -/
  | add (d a b : EReg)
  /-- `SUB Ed, Ea, Eb` (R103). -/
  | sub (d a b : EReg)
  /-- `MUL Ed, Ea, Eb` (R111). -/
  | mul (d a b : EReg)
  /-- `CARRY Ed, Ea` (R121). -/
  | carry (d a : EReg)
  /-- `INV Ed, Ea` (R131). -/
  | inv (d a : EReg)
  /-- `SWAP Ea, Eb, k` (R141). -/
  | swap (a b : EReg) (k : BitVec 1)
  deriving DecidableEq, Repr

/-- The pseudo-instruction `SQR Ed, Ea` is `MUL Ed, Ea, Ea` (R67). -/
abbrev Instr.sqr (d a : EReg) : Instr := .mul d a a

/-- The opcode of a command (R61). -/
def Instr.opcode : Instr → Opcode
  | .unpack _ _ => .unpack
  | .pack _ _ => .pack
  | .add _ _ _ => .add
  | .sub _ _ _ => .sub
  | .mul _ _ _ => .mul
  | .carry _ _ => .carry
  | .inv _ _ => .inv
  | .swap _ _ _ => .swap

end Sys2Proof
end

