-- ==== Sys2Proof/WellFormed.lean ====
section
/-! DEFINITION. Well-formed commands: every register and slot they name exists (spec/92_eei_decisions.md, the note under
the open parameters; spec/00_scope.md R10). The types of the operands bound the fields to 3 bits already. -/

namespace Sys2Proof

/-- The register exists in an engine with `ne` element registers. -/
def regExists (ne : Nat) (r : EReg) : Bool := r.val < ne

/-- The slot exists in an engine with `np` slots. -/
def slotExists (np : Nat) (s : Slot) : Bool := s.val < np

/-- Every register and slot that the command names exists in an engine of `ne` registers and `np` slots. -/
def Instr.wellFormedFor (ne np : Nat) : Instr → Bool
  | .unpack d a => regExists ne d && slotExists np a
  | .pack d a => slotExists np d && regExists ne a
  | .add d a b => regExists ne d && regExists ne a && regExists ne b
  | .sub d a b => regExists ne d && regExists ne a && regExists ne b
  | .mul d a b => regExists ne d && regExists ne a && regExists ne b
  | .carry d a => regExists ne d && regExists ne a
  | .inv d a => regExists ne d && regExists ne a
  | .swap a b _ => regExists ne a && regExists ne b

/-- Well-formed for this engine, which has 8 registers and 8 slots (R10). -/
def Instr.wellFormed (i : Instr) : Bool := i.wellFormedFor Config.numRegs Config.numSlots

end Sys2Proof
end

