-- ==== Sys2Proof/Decode.lean ====
section
/-! DEFINITION. The command word: decoding, total and rejecting by name, and then the encoder (spec/30_encoding.md R60 to R66). -/

namespace Sys2Proof

/-- Field `op`, bits 15:12 (R60). -/
def fieldOp (w : CmdWord) : BitVec 4 := w.extractLsb' 12 4

/-- Field `d`, bits 11:9 (R60, R63). -/
def fieldD (w : CmdWord) : Fin 8 := (w.extractLsb' 9 3).toFin

/-- Field `a`, bits 8:6 (R60, R63). -/
def fieldA (w : CmdWord) : Fin 8 := (w.extractLsb' 6 3).toFin

/-- Field `b`, bits 5:3 (R60, R63). -/
def fieldB (w : CmdWord) : Fin 8 := (w.extractLsb' 3 3).toFin

/-- Field `z`, bits 2:1, reserved (R60). -/
def fieldZ (w : CmdWord) : BitVec 2 := w.extractLsb' 1 2

/-- Field `k`, bit 0 (R60, R63). -/
def fieldK (w : CmdWord) : BitVec 1 := w.extractLsb' 0 1

/-- A row of the table of R62: a word `w` selects the command exactly when `w & mask` is the row's `match`, here
`pattern`. -/
structure CmdRow where
  op : Opcode
  mask : CmdWord
  pattern : CmdWord
  deriving DecidableEq, Repr

/-- The rows of R62, in its order. -/
def cmdRows : List CmdRow := [
  ⟨.unpack, 0xF03F, 0x1000⟩,
  ⟨.pack, 0xF03F, 0x2000⟩,
  ⟨.add, 0xF007, 0x3000⟩,
  ⟨.sub, 0xF007, 0x4000⟩,
  ⟨.mul, 0xF007, 0x5000⟩,
  ⟨.carry, 0xF03F, 0x6000⟩,
  ⟨.inv, 0xF03F, 0x7000⟩,
  ⟨.swap, 0xFE06, 0x8000⟩]

/-- `w & mask = match` (R62). -/
def CmdRow.selects (r : CmdRow) (w : CmdWord) : Bool := w &&& r.mask == r.pattern

/-- The command of opcode `op` with the fields of `w` (R62, "Field use per command"). -/
def buildCmd (op : Opcode) (w : CmdWord) : Instr :=
  match op with
  | .unpack => .unpack (fieldD w) (fieldA w)
  | .pack => .pack (fieldD w) (fieldA w)
  | .add => .add (fieldD w) (fieldA w) (fieldB w)
  | .sub => .sub (fieldD w) (fieldA w) (fieldB w)
  | .mul => .mul (fieldD w) (fieldA w) (fieldB w)
  | .carry => .carry (fieldD w) (fieldA w)
  | .inv => .inv (fieldD w) (fieldA w)
  | .swap => .swap (fieldA w) (fieldB w) (fieldK w)

/-- Why a word is `Illegal`, by the first clause of R64 that applies. The engine itself records nothing. -/
inductive IllegalWord where
  /-- `op` is 0x0 or 0x9 to 0xF. -/
  | reservedOpcode
  /-- `z` is not 0. -/
  | nonzeroZ
  /-- UNPACK, PACK, CARRY or INV with `b` not 0. -/
  | nonzeroB
  /-- SWAP with `d` not 0. -/
  | nonzeroD
  /-- Any command but SWAP with `k` = 1. -/
  | nonzeroK
  deriving DecidableEq, Repr

/-- What decoding a word gives: a command, or `Illegal` (R64). -/
inductive Decoded where
  | command (i : Instr)
  | illegal (why : IllegalWord)
  deriving DecidableEq, Repr

/-- The reason a word that no row selects is illegal (R64). -/
def illegalReason (w : CmdWord) : IllegalWord :=
  if fieldOp w = 0 ∨ 9 ≤ (fieldOp w).toNat then .reservedOpcode
  else if fieldZ w ≠ 0 then .nonzeroZ
  else if fieldOp w = 8 then .nonzeroD
  else if fieldB w ≠ 0 ∧ (fieldOp w = 1 ∨ fieldOp w = 2 ∨ fieldOp w = 6 ∨ fieldOp w = 7) then .nonzeroB
  else .nonzeroK

/-- `decode(w)`: the command of the first row that selects `w`, or `Illegal` (R64). Total on all 65536 words. -/
def decode (w : CmdWord) : Decoded :=
  match cmdRows.find? (fun r => r.selects w) with
  | some r => .command (buildCmd r.op w)
  | none => .illegal (illegalReason w)

/-- The instruction the decoder reads from a table word. A command word is a value and has no byte order (R60); the bits
above `nbits` are 0; a value of more than 16 bits is no command word. -/
def decodeTableWord (nbits w : Nat) : Option Instr :=
  if w % 2 ^ nbits < 65536 then
    match decode (BitVec.ofNat 16 (w % 2 ^ nbits)) with
    | .command i => some i
    | .illegal _ => none
  else none

/-- "The word value of a command is op·4096 + d·512 + a·64 + b·8 + k" (R62). -/
def cmdWord (op d a b k : Nat) : CmdWord := BitVec.ofNat 16 (op * 4096 + d * 512 + a * 64 + b * 8 + k)

/-- The word of a command (R62, R66). -/
def encode : Instr → CmdWord
  | .unpack d a => cmdWord 1 d.val a.val 0 0
  | .pack d a => cmdWord 2 d.val a.val 0 0
  | .add d a b => cmdWord 3 d.val a.val b.val 0
  | .sub d a b => cmdWord 4 d.val a.val b.val 0
  | .mul d a b => cmdWord 5 d.val a.val b.val 0
  | .carry d a => cmdWord 6 d.val a.val 0 0
  | .inv d a => cmdWord 7 d.val a.val 0 0
  | .swap a b k => cmdWord 8 0 a.val b.val k.toNat

end Sys2Proof
end

