-- ==== Sys2Proof/Machine/State.lean ====
section
/-! DEFINITION. The state of the engine and of the host stream that drives it (spec/10_state.md R20 to R31; spec/20_memory.md
R45, R49; spec/30_encoding.md R68; spec/70_reset_and_hazards.md R170). -/

namespace Sys2Proof.Machine

/-- One transaction of the host (R45, R68, R170). All of them form one total order (R49). -/
inductive HostTxn where
  /-- `Issue(w)`: the host presents a command word; blocking (R68). -/
  | issue (w : CmdWord)
  /-- `HostWrite(addr, v)`: sets one byte of PM (R45). -/
  | hostWrite (addr : Addr) (v : Byte)
  /-- `HostRead(addr)`: returns one byte of PM (R45). -/
  | hostRead (addr : Addr)
  /-- `Reset` while the engine is idle (R170). -/
  | reset
  /-- `Reset` while the command of `Issue(w)` executes: the command is abandoned (R170; log entry 8). -/
  | resetDuring (w : CmdWord)
  deriving DecidableEq, Repr

/-- The faults of the machine: none. "The set of synchronous exceptions is empty" (R150, R151, R154), so no step can end in
a fault; this is neither safe nor unsafe, there is nothing to raise. -/
inductive Fault : Type
  deriving DecidableEq, Repr

/-- The refusals of the machine. Every command has its meaning, so no step ends in one. -/
inductive Refusal where
  /-- Raised by exec for an instruction that has no meaning in the model; no arm of exec raises it. Safe: the model stops
  where the hardware goes on. -/
  | notModelled (mnemonic : String)
  deriving DecidableEq, Repr

/-- The packed-element memory PM as (address, byte) cells in one canonical form, `Memory.wf` of Machine/Ops.lean (R27, R40). -/
abbrev Memory := List Host.Cell

/-- The state: E and PM are all that the spec gives the engine (R20, R27); `host`, `answers` and `resets` are the model's
own fields. -/
structure State where
  /-- `E[0]` to `E[7]` (R20, R21). -/
  elements : Vector Elem 8
  /-- `PM` (R27). -/
  pm : Memory
  /-- MODEL: the host's transactions still to come, next first (R49, R68; log entry 4). -/
  host : List HostTxn
  /-- MODEL: the bytes HostRead has returned to the host, newest first (R45; log entry 5). -/
  answers : List Byte
  /-- MODEL: how many Reset transactions there were, the draw counter of the free values (R30; log entry 3). -/
  resets : Nat
  deriving DecidableEq, Repr

/-- The machine right after reset. R30 leaves E and PM unspecified: the zeros here are the model's (DESIGN CHOICE, log
entries 1 and 2), and no statement rests on them. Nothing is pending (log entries 3 to 5). -/
def State.reset : State where
  elements := Vector.replicate 8 (Vector.replicate 16 0)
  pm := []
  host := []
  answers := []
  resets := 0

end Sys2Proof.Machine
end

