-- ==== Sys2Proof/Machine/Ops.lean ====
section
/-! DEFINITION. The named operations over limbs, over PM and over the host stream (spec/00_scope.md R12 to R16;
spec/20_memory.md R42, R45; spec/70_reset_and_hazards.md R170).

There is no operation that takes an exception and none that returns from one: the set of exceptions is empty and there is
neither trap entry nor trap return (spec/60_exceptions.md R150, R157, R158). -/

namespace Sys2Proof.Machine

/-! ### Limbs -/

/-- `wrap64(v)`: the unique `i64` that is `v` modulo 2^64 (R12). -/
def wrap64 (v : Int) : Limb := BitVec.ofInt 64 v

/-- `v >> n`, the arithmetic right shift of an `i64`: `floor(v / 2^n)` (R13). -/
def asr (x : Limb) (n : Nat) : Int := x.toInt / 2 ^ n

/-! ### PM -/

/-- What an address that the list does not hold reads as: 0 (DESIGN CHOICE, log entry 2). -/
def Memory.unlisted : Byte := 0

/-- The first cell of the address, if the list holds one. -/
def Memory.find : Memory → Nat → Option Byte
  | [], _ => none
  | (b, v) :: rest, a => if b = a then some v else Memory.find rest a

/-- `PM[a]` (R16). -/
def Memory.read (m : Memory) (a : Addr) : Byte := (Memory.find m a.toNat).getD Memory.unlisted

/-- The list without any cell of the address. -/
def Memory.erase : Memory → Nat → Memory
  | [], _ => []
  | (b, v) :: rest, a => if b = a then Memory.erase rest a else (b, v) :: Memory.erase rest a

/-- The list with a cell put before the first cell of a higher address. -/
def Memory.insert : Memory → Nat → Byte → Memory
  | [], a, v => [(a, v)]
  | (b, u) :: rest, a, v => if b < a then (b, u) :: Memory.insert rest a v else (a, v) :: (b, u) :: rest

/-- `PM[a] <- v`. Writing what an unlisted address reads as removes the cell, so that equal memories are equal lists. -/
def Memory.write (m : Memory) (a : Addr) (v : Byte) : Memory :=
  if v = Memory.unlisted then Memory.erase m a.toNat else Memory.insert (Memory.erase m a.toNat) a.toNat v

/-- The cells are at rising addresses from `lo` on, all below 256, and none holds what an unlisted address reads as. -/
def Memory.wfFrom : Nat → Memory → Bool
  | _, [] => true
  | lo, (b, v) :: rest =>
    decide (lo ≤ b) && decide (b < 256) && decide (v ≠ Memory.unlisted) && Memory.wfFrom (b + 1) rest

/-- The canonical form of PM. -/
def Memory.wf (m : Memory) : Bool := Memory.wfFrom 0 m

/-- The canonical memory whose byte `a` is `f a`. -/
def Memory.ofBytes (f : Addr → Byte) : Memory :=
  (List.range 256).filterMap fun a =>
    if f (BitVec.ofNat 8 a) = Memory.unlisted then none else some (a, f (BitVec.ofNat 8 a))

/-- Address `addr + j` (R42). Commands form it only inside one slot, where it never passes 0xFF (R44; log entry 11). -/
def byteAddr (addr : Addr) (j : Nat) : Addr := addr + BitVec.ofNat 8 j

/-- `MemRead(addr, n)`: the bytes `PM[addr], ..., PM[addr+n-1]` (R16, R42). -/
def memRead (m : Memory) (addr : Addr) (n : Nat) : Vector Byte n :=
  Vector.ofFn fun j => Memory.read m (byteAddr addr j.val)

/-- `MemWrite(addr, n, v)`: byte `j` of `v` to `PM[addr+j]`, in that order (R16, R42). -/
def memWrite {n : Nat} (m : Memory) (addr : Addr) (v : Vector Byte n) : Memory :=
  (List.finRange n).foldl (fun m j => Memory.write m (byteAddr addr j.val) v[j]) m

/-! ### Host transactions other than Issue -/

/-- The state with `rest` as the host's coming transactions. -/
def State.setHost (s : State) (rest : List HostTxn) : State := { s with host := rest }

/-- `HostWrite(addr, v)`: `PM[addr] <- v` and nothing else (R45). -/
def hostWriteByte (addr : Addr) (v : Byte) (s : State) : State := { s with pm := Memory.write s.pm addr v }

/-- `HostRead(addr)`: returns `PM[addr]` to the host and changes nothing else (R45, R46). -/
def hostReadByte (addr : Addr) (s : State) : State := { s with answers := Memory.read s.pm addr :: s.answers }

/-- `Reset`, abandoning the command word `cmd` if one is executing: all of E and PM take unspecified values, which are free
values here; the engine is then idle and ready (R30, R170; log entries 3 and 8). -/
def resetEngine (cmd : Option CmdWord) (s : State) : State :=
  { s with
    elements := Vector.ofFn fun r => Vector.ofFn fun i => Config.resetLimb s.resets cmd s.elements s.pm r i
    pm := Memory.ofBytes fun a => Config.resetByte s.resets cmd s.elements s.pm a
    resets := s.resets + 1 }

end Sys2Proof.Machine
end

