-- ==== Sys2Proof/Machine/Operands.lean ====
section
/-! DEFINITION. The operand forms of a command: an element register, a slot of PM, the swap bit (spec/30_encoding.md R63;
spec/00_scope.md R16; spec/20_memory.md R41). There is no other addressing mode. -/

namespace Sys2Proof.Machine

/-- `E[r]`. No register is hardwired, banked or aliased (R16, R22). -/
def State.reg (s : State) (r : EReg) : Elem := s.elements[r]

/-- `E[r] <- x`: all 16 limbs (R16, R22). -/
def State.setReg (s : State) (r : EReg) (x : Elem) : State := { s with elements := s.elements.set r x }

/-- The first address of slot `n`: `32·n` (R41, R63). -/
def slotAddr (n : Slot) : Addr := BitVec.ofNat 8 (32 * n.val)

/-- `P[n]`, all 32 bytes: `MemRead(32·n, 32)` (R27, R46). -/
def State.slot (s : State) (n : Slot) : Packed := memRead s.pm (slotAddr n) 32

/-- `P[n] <- v`, all 32 bytes: `MemWrite(32·n, 32, v)` (R27, R46). -/
def State.setSlot (s : State) (n : Slot) (v : Packed) : State := { s with pm := memWrite s.pm (slotAddr n) v }

/-- The mask that the swap bit `k` stands for: `-k` as an `i64`, all ones for 1 and 0 for 0 (R140). -/
def swapMask (k : BitVec 1) : Limb := wrap64 (-(k.toNat : Int))

end Sys2Proof.Machine
end

