-- ==== Sys2Proof/Machine/Flags.lean ====
section
/-! DEFINITION. Flags: the engine has none, and no command records carry-out, borrow, overflow, zero or sign
(spec/10_state.md R25). The one flag-like signal is pack's transient borrow, which is never stored (R25, R28). -/

namespace Sys2Proof.Machine

/-- The borrow of a per-limb difference: its bit 16, `(m >> 16) & 1` (R14, R84). -/
def borrowBit (m : Limb) : BitVec 1 := m.extractLsb' 16 1

end Sys2Proof.Machine
end

