-- ==== Sys2Proof/Machine/AddSub.lean ====
section
/-! DEFINITION. The modular adder and subtractor: ADD and SUB (spec/41_addsub.md R100 to R103). -/

namespace Sys2Proof.Machine

/-- `fe_add(a, b)`: `wrap64(a[i] + b[i])` for each limb; no carry between limbs, no reduction (R100). -/
def feAdd (a b : Elem) : Elem := Vector.ofFn fun i => wrap64 (a[i].toInt + b[i].toInt)

/-- `fe_sub(a, b)`: `wrap64(a[i] - b[i])` for each limb; no borrow between limbs, no reduction (R102). -/
def feSub (a b : Elem) : Elem := Vector.ofFn fun i => wrap64 (a[i].toInt - b[i].toInt)

/-- ADD Ed, Ea, Eb: `E[d] <- fe_add(E[a], E[b])` (R101). -/
def execAdd (d a b : EReg) (s : State) : Host.Outcome State Fault Refusal :=
  .next (s.setReg d (feAdd (s.reg a) (s.reg b)))

/-- SUB Ed, Ea, Eb: `E[d] <- fe_sub(E[a], E[b])`, `a` the minuend (R103). -/
def execSub (d a b : EReg) (s : State) : Host.Outcome State Fault Refusal :=
  .next (s.setReg d (feSub (s.reg a) (s.reg b)))

end Sys2Proof.Machine
end

