-- ==== Sys2Proof/Machine/Carry.lean ====
section
/-! DEFINITION. The carry propagation network: CARRY (spec/43_carry.md R120, R121). -/

namespace Sys2Proof.Machine

/-- Step `i` of a carry pass: take the carry of limb `i`, reduce the limb, and pass the carry to limb `i + 1`, or times 38
to limb 0 when `i` is 15 (R120). -/
def carryStep (o : Elem) (i : Fin 16) : Elem :=
  let c := asr o[i] 16
  let o := o.set i (wrap64 (o[i].toInt - c * 65536))
  if h : i.val < 15 then o.set (i.val + 1) (wrap64 (o[i.val + 1].toInt + c))
  else o.set 0 (wrap64 (o[0].toInt + 38 * c))

/-- `fe_carry(x)`: the sixteen steps, limb 0 first, strictly in this order (R120). -/
def feCarry (x : Elem) : Elem := (List.finRange 16).foldl carryStep x

/-- CARRY Ed, Ea: `E[d] <- fe_carry(E[a])` (R121). -/
def execCarry (d a : EReg) (s : State) : Host.Outcome State Fault Refusal :=
  .next (s.setReg d (feCarry (s.reg a)))

end Sys2Proof.Machine
end

