-- ==== Sys2Proof/Machine/Swap.lean ====
section
/-! DEFINITION. The conditional swap unit: SWAP (spec/45_swap.md R140, R141). -/

namespace Sys2Proof.Machine

/-- `fe_swap(x, y, k)`: per limb `t = c & (x xor y)`, then `x xor t` and `y xor t`, with `c` the mask of `k`; no branch on
`k` (R140, R142). -/
def feSwap (x y : Elem) (k : BitVec 1) : Elem × Elem :=
  let c := swapMask k
  let t : Elem := Vector.ofFn fun i => c &&& (x[i] ^^^ y[i])
  (Vector.ofFn fun i => x[i] ^^^ t[i], Vector.ofFn fun i => y[i] ^^^ t[i])

/-- SWAP Ea, Eb, k: `(x', y') = fe_swap(E[a], E[b], k); E[a] <- x'; E[b] <- y'`; both written for either `k` (R141). -/
def execSwap (a b : EReg) (k : BitVec 1) (s : State) : Host.Outcome State Fault Refusal :=
  let r := feSwap (s.reg a) (s.reg b) k
  .next ((s.setReg a r.1).setReg b r.2)

end Sys2Proof.Machine
end

