-- ==== Sys2Proof/Machine/Codec.lean ====
section
/-! DEFINITION. The field-element codec: UNPACK and PACK (spec/40_codec.md R80 to R87). -/

namespace Sys2Proof.Machine

/-- `zext_64(b[2i]) + zext_64(b[2i+1]) * 256` (R80, R15, R43). -/
def limbOfBytes (lo hi : Byte) : Limb := lo.setWidth 64 + hi.setWidth 64 * 256

/-- `fe_unpack(b)`: limb `i` from bytes `2i` and `2i+1`; limb 15 is masked with 0x7fff (R80). -/
def feUnpack (b : Packed) : Elem :=
  Vector.ofFn fun i : Fin 16 =>
    let v := limbOfBytes b[2 * i.val] b[2 * i.val + 1]
    if i.val = 15 then v &&& 0x7fff else v

/-- UNPACK Ed, Pa: `E[d] <- fe_unpack(MemRead(32*a, 32))` (R81). -/
def execUnpack (d : EReg) (a : Slot) (s : State) : Host.Outcome State Fault Refusal :=
  .next (s.setReg d (feUnpack (s.slot a)))

/-- Step 1 of `fe_pack`, normalize: three sequential carry passes (R83). -/
def feNormalize (n : Elem) : Elem := feCarry (feCarry (feCarry n))

/-- One difference of the candidate: `wrap64(t - q - borrow)` (R84). -/
def subBorrow (t : Limb) (q : Int) (borrow : BitVec 1) : Limb := wrap64 (t.toInt - q - (borrow.toNat : Int))

/-- The step for limb `j + 1` in 1..14 of the candidate: its difference takes the borrow of the unmasked limb `j`, which is
then reduced to its low 16 bits (R84). -/
def candidateStep (t m : Elem) (j : Fin 14) : Elem :=
  let m := m.set (j.val + 1) (subBorrow t[j.val + 1] 0xffff (borrowBit m[j.val]))
  m.set j.val (m[j.val] &&& 0xffff)

/-- The candidate `m`, which is t minus p limb by limb with running borrows: limbs 0..14 reduced to their low 16 bits, limb
15 left unmasked (R84, whose masks are decision D18). -/
def candidate (t : Elem) : Elem :=
  let m : Elem := (Vector.replicate 16 0).set 0 (wrap64 (t[0].toInt - 0xffed))
  let m := (List.finRange 14).foldl (candidateStep t) m
  let m := m.set 15 (subBorrow t[15] 0x7fff (borrowBit m[14]))
  m.set 14 (m[14] &&& 0xffff)

/-- `fe_subp_round(t)`: replace t by the candidate when limb 15 of it has no borrow, by a masked swap keyed on
`1 - borrow` (R84). -/
def subpRound (t : Elem) : Elem :=
  let m := candidate t
  let borrow := borrowBit m[15]
  (feSwap t m (1 - borrow)).1

/-- Step 2 of `fe_pack`, canonicalize: two rounds (R84). -/
def feCanonicalize (t : Elem) : Elem := subpRound (subpRound t)

/-- Step 3 of `fe_pack`, serialize: byte `2i` is the low byte of limb `i`, byte `2i+1` the next one (R85). -/
def feSerialize (t : Elem) : Packed :=
  Vector.ofFn fun j : Fin 32 =>
    if j.val % 2 = 0 then (t[j.val / 2] &&& 0xff).setWidth 8
    else (wrap64 (asr t[j.val / 2] 8) &&& 0xff).setWidth 8

/-- `fe_pack(n)`: normalize, canonicalize, serialize (R86). -/
def fePack (n : Elem) : Packed := feSerialize (feCanonicalize (feNormalize n))

/-- PACK Pd, Ea: `MemWrite(32*d, 32, fe_pack(E[a]))` (R87). -/
def execPack (d : Slot) (a : EReg) (s : State) : Host.Outcome State Fault Refusal :=
  .next (s.setSlot d (fePack (s.reg a)))

end Sys2Proof.Machine
end

