-- ==== Sys2Proof/Machine/Mul.lean ====
section
/-! DEFINITION. The field multiplier with reduction: MUL (spec/42_mul.md R110 to R112). -/

namespace Sys2Proof.Machine

/-- `product[i+j] = wrap64(product[i+j] + a[i] * b[j])` (R110). -/
def productStep (a b : Elem) (product : Vector Limb 32) (i j : Fin 16) : Vector Limb 32 :=
  product.set (i.val + j.val) (wrap64 (product[i.val + j.val].toInt + a[i].toInt * b[j].toInt))

/-- The convolution: 32 entries that start at 0, then all 256 limb products (R110). -/
def convolve (a b : Elem) : Vector Limb 32 :=
  (List.finRange 16).foldl
    (fun product i => (List.finRange 16).foldl (fun product j => productStep a b product i j) product)
    (Vector.replicate 32 0)

/-- `product[i] = wrap64(product[i] + 38 * product[i+16])` (R110). -/
def foldStep (product : Vector Limb 32) (i : Fin 15) : Vector Limb 32 :=
  product.set i.val (wrap64 (product[i.val].toInt + 38 * product[i.val + 16].toInt))

/-- The fold-back over entries 0..14; entry 15 receives nothing (R110, R112). -/
def foldBack (product : Vector Limb 32) : Vector Limb 32 := (List.finRange 15).foldl foldStep product

/-- The low 16 entries of the product (R110, "truncate"). -/
def truncate (product : Vector Limb 32) : Elem := Vector.ofFn fun i : Fin 16 => product[i.val]

/-- `fe_mul(a, b)`: convolution, fold-back, truncation, two carry passes (R110). -/
def feMul (a b : Elem) : Elem := feCarry (feCarry (truncate (foldBack (convolve a b))))

/-- MUL Ed, Ea, Eb: `E[d] <- fe_mul(E[a], E[b])` (R111). -/
def execMul (d a b : EReg) (s : State) : Host.Outcome State Fault Refusal :=
  .next (s.setReg d (feMul (s.reg a) (s.reg b)))

end Sys2Proof.Machine
end

