-- ==== Sys2Proof/Machine/Inverse.lean ====
section
/-! DEFINITION. The modular inverse by fixed exponentiation chain: INV (spec/44_inverse.md R130, R131, R134). -/

namespace Sys2Proof.Machine

/-- One operation of the chain (R130). -/
inductive ChainOp where
  /-- `acc = fe_mul(acc, acc)` -/
  | square
  /-- `acc = fe_mul(acc, a)`, with the original input -/
  | multiply
  deriving DecidableEq, Repr

/-- The operations of iteration `i`: a squaring, and a multiplication unless `i` is 2 or 4; a test on the public loop
counter, not on data (R130). -/
def chainAt (i : Nat) : List ChainOp := if i ≠ 2 ∧ i ≠ 4 then [.square, .multiply] else [.square]

/-- The fixed schedule: iterations 253 down to 0 (R130, R134). -/
def invChain : List ChainOp := (List.range 254).reverse.flatMap chainAt

/-- One operation on the accumulator, `a` being the original input (R130). -/
def chainStep (a acc : Elem) : ChainOp → Elem
  | .square => feMul acc acc
  | .multiply => feMul acc a

/-- `fe_inv(a)`: the chain on an accumulator that starts at the input itself (R130). -/
def feInv (a : Elem) : Elem := invChain.foldl (chainStep a) a

/-- INV Ed, Ea: `E[d] <- fe_inv(E[a])` (R131). -/
def execInv (d a : EReg) (s : State) : Host.Outcome State Fault Refusal :=
  .next (s.setReg d (feInv (s.reg a)))

end Sys2Proof.Machine
end

