-- ==== Sys2Proof/Machine/Dispatch.lean ====
section
/-! DEFINITION. One arm per command (spec/30_encoding.md R61, R69). -/

namespace Sys2Proof.Machine

def exec (i : Instr) (s : State) : Host.Outcome State Fault Refusal :=
  match i with
  | .unpack d a => Sys2Proof.Machine.execUnpack d a s
  | .pack d a => Sys2Proof.Machine.execPack d a s
  | .add d a b => Sys2Proof.Machine.execAdd d a b s
  | .sub d a b => Sys2Proof.Machine.execSub d a b s
  | .mul d a b => Sys2Proof.Machine.execMul d a b s
  | .carry d a => Sys2Proof.Machine.execCarry d a s
  | .inv d a => Sys2Proof.Machine.execInv d a s
  | .swap a b k => Sys2Proof.Machine.execSwap a b k s

end Sys2Proof.Machine
end

