-- ==== Sys2Proof/Machine/Issue.lean ====
section
/-! DEFINITION. Issuing a command word, and one transaction of the host (spec/30_encoding.md R68, R69; spec/20_memory.md R45, R49;
spec/70_reset_and_hazards.md R170; spec/60_exceptions.md R154, R165). -/

namespace Sys2Proof.Machine

/-- `Issue(w)`: an illegal word leaves the state unchanged, any other is executed (R68, R69, R154; log entry 6). -/
def issueWord (w : CmdWord) (s : State) : Host.Outcome State Fault Refusal :=
  match decode w with
  | .command i => exec i s
  | .illegal _ => .next s

/-- One transaction, in its place in the host's order (R49). -/
def hostStep (t : HostTxn) (s : State) : Host.Outcome State Fault Refusal :=
  match t with
  | .issue w => issueWord w s
  | .hostWrite addr v => .next (hostWriteByte addr v s)
  | .hostRead addr => .next (hostReadByte addr s)
  | .reset => .next (resetEngine none s)
  | .resetDuring w => .next (resetEngine (some w) s)

/-- No transaction is pending: the engine is idle and holds E and PM (R6, R165; log entry 7). -/
def idleStep (s : State) : Host.Outcome State Fault Refusal := .next s

/-- The state with `Issue(w)` as the very next transaction of the host (R51, R68; log entry 4). -/
def State.pushIssue (s : State) (w : CmdWord) : State := s.setHost (.issue w :: s.host)

end Sys2Proof.Machine
end

