-- ==== Sys2Proof/Machine/Step.lean ====
section
/-! DEFINITION. One step of the machine: the next transaction of the host (spec/20_memory.md R49; spec/30_encoding.md R68, R69). -/

namespace Sys2Proof.Machine

/-- The head of the host's stream is taken off and performed; with none left the engine idles. -/
def step (s : State) : Host.Outcome State Fault Refusal :=
  match s.host with
  | [] => idleStep s
  | t :: rest => hostStep t (s.setHost rest)

/-- The state whose very next step issues the table word: the engine fetches nothing, the host delivers the word with the
Issue (R24, R51, R68; log entry 4). -/
def State.withFetchWord (s : State) (nbits w : Nat) : State := s.pushIssue (BitVec.ofNat 16 (w % 2 ^ nbits))

end Sys2Proof.Machine
end

