-- ==== Sys2Proof/Machine/Assembler.lean ====
section
/-! DEFINITION. The assembler syntax of the commands (spec/30_encoding.md R66): upper-case mnemonic, destination first, `E<n>`,
`P<n>`, the swap bit as the literal 0 or 1. The machine does not use it. -/

namespace Sys2Proof.Machine

/-- The digit of a register or slot number. -/
def digit : Fin 8 → String
  | 0 => "0"
  | 1 => "1"
  | 2 => "2"
  | 3 => "3"
  | 4 => "4"
  | 5 => "5"
  | 6 => "6"
  | 7 => "7"

/-- `E<n>` (R66). -/
def regName (r : EReg) : String := "E" ++ digit r

/-- `P<n>` (R66). -/
def slotName (s : Slot) : String := "P" ++ digit s

/-- The mnemonic of an opcode (R61). -/
def mnemonic : Opcode → String
  | .unpack => "UNPACK"
  | .pack => "PACK"
  | .add => "ADD"
  | .sub => "SUB"
  | .mul => "MUL"
  | .carry => "CARRY"
  | .inv => "INV"
  | .swap => "SWAP"

/-- Mnemonic and operands, separated by commas. -/
def asmLine (op : Opcode) : List String → String
  | [] => mnemonic op
  | x :: xs => xs.foldl (fun line y => line ++ ", " ++ y) (mnemonic op ++ " " ++ x)

/-- The assembler line of a command (R66). -/
def asm (i : Instr) : String :=
  match i with
  | .unpack d a => asmLine i.opcode [regName d, slotName a]
  | .pack d a => asmLine i.opcode [slotName d, regName a]
  | .add d a b => asmLine i.opcode [regName d, regName a, regName b]
  | .sub d a b => asmLine i.opcode [regName d, regName a, regName b]
  | .mul d a b => asmLine i.opcode [regName d, regName a, regName b]
  | .carry d a => asmLine i.opcode [regName d, regName a]
  | .inv d a => asmLine i.opcode [regName d, regName a]
  | .swap a b k => asmLine i.opcode [regName a, regName b, if k = 1 then "1" else "0"]

end Sys2Proof.Machine
end

