-- ==== Sys2Proof/Machine/Value.lean ====
section
/-! DEFINITION. The integer values of limb vectors and packed elements, and the document's description of the arithmetic on
unbounded integers (spec/00_scope.md R12, R17, R18). The machine does not use them; claims are stated in them. -/

namespace Sys2Proof.Machine

/-- `val(x) = Σ x[i] · 2^(16·i)`: may be negative or exceed p (R17). -/
def val (x : Elem) : Int := ∑ i : Fin 16, x[i].toInt * 2 ^ (16 * i.val)

/-- `fe(x) = val(x) mod p`, in [0, p): the field element that x represents (R17). -/
def fe (x : Elem) : Int := val x % (Config.p : Int)

/-- `int(b) = Σ b[j] · 2^(8·j)`: little-endian (R18). -/
def packedInt (b : Packed) : Nat := ∑ j : Fin 32, b[j].toNat * 2 ^ (8 * j.val)

/-- A packed element is canonical when `int(b) < p` (R18). -/
abbrev Canonical (b : Packed) : Prop := packedInt b < Config.p

/-- The 32 bytes that encode `n`, little-endian (R18, R42). -/
def packedOf (n : Nat) : Packed := Vector.ofFn fun j => BitVec.ofNat 8 (n / 2 ^ (8 * j.val))

/-- `max |x[i]|` (R113, R133, R174). -/
def limbMax (x : Elem) : Nat := Finset.univ.sup fun i : Fin 16 => x[i].toInt.natAbs

/-- Every limb is in [0, 2^16): nothing is left to carry (R23, R122). -/
abbrev Settled (x : Elem) : Prop := ∀ i : Fin 16, 0 ≤ x[i].toInt ∧ x[i].toInt < 2 ^ 16

/-! ### The arithmetic without wrap64

"Exact" is said of an execution in which no `wrap64` changed a value, so that the result equals the document's description
on unbounded integers (R12, glossary of 00_scope.md). That description: -/

/-- The limbs of a register as integers (R11). -/
def ints (x : Elem) : Vector Int 16 := x.map BitVec.toInt

/-- `add` on unbounded integers (R100). -/
def addZ (a b : Vector Int 16) : Vector Int 16 := Vector.ofFn fun i => a[i] + b[i]

/-- `sub` on unbounded integers (R102). -/
def subZ (a b : Vector Int 16) : Vector Int 16 := Vector.ofFn fun i => a[i] - b[i]

/-- Step `i` of a carry pass on unbounded integers (R120). -/
def carryStepZ (o : Vector Int 16) (i : Fin 16) : Vector Int 16 :=
  let c := o[i] / 2 ^ 16
  let o := o.set i (o[i] - c * 65536)
  if h : i.val < 15 then o.set (i.val + 1) (o[i.val + 1] + c) else o.set 0 (o[0] + 38 * c)

/-- A carry pass on unbounded integers (R120). -/
def carryZ (x : Vector Int 16) : Vector Int 16 := (List.finRange 16).foldl carryStepZ x

/-- Entry `k` of the product of two limb vectors on unbounded integers: `Σ_{i+j=k} a[i]·b[j]` (R110). -/
def convolveZ (a b : Vector Int 16) (k : Nat) : Int :=
  ∑ i : Fin 16, ∑ j : Fin 16, if i.val + j.val = k then a[i] * b[j] else 0

/-- Fold-back and truncation on unbounded integers; entry 15 receives nothing (R110, R112). -/
def foldZ (product : Nat → Int) : Vector Int 16 :=
  Vector.ofFn fun i : Fin 16 => if i.val < 15 then product i.val + 38 * product (i.val + 16) else product i.val

/-- `mul` on unbounded integers (R110). -/
def mulZ (a b : Vector Int 16) : Vector Int 16 := carryZ (carryZ (foldZ (convolveZ a b)))

/-- One operation of the exponentiation chain on unbounded integers (R130). -/
def chainStepZ (a acc : Vector Int 16) : ChainOp → Vector Int 16
  | .square => mulZ acc acc
  | .multiply => mulZ acc a

/-- `inverse` on unbounded integers (R130). -/
def invZ (a : Vector Int 16) : Vector Int 16 := invChain.foldl (chainStepZ a) a

end Sys2Proof.Machine
end

