-- ==== Sys2Proof/Safety.lean ====
section
/-! DEFINITION. The terms in which claims about runs are stated: limb bounds, legal streams, what a command reads and writes, the
time it takes, the field arithmetic it stands for (spec/70_reset_and_hazards.md R174, R178; spec/30_encoding.md R64;
spec/00_scope.md R8; spec/20_memory.md R47). -/

namespace Sys2Proof.Machine

/-! ### Obligations on software -/

/-- The command is exact and meaningful in this state, by the bounds of R174 with `A = max |E[a][i]|`,
`B = max |E[b][i]|`. The engine neither checks nor reports them (R152). -/
def InBounds (i : Instr) (s : State) : Prop :=
  match i with
  | .unpack _ _ => True
  | .pack _ a => limbMax (s.reg a) ≤ 2 ^ 62
  | .add _ a b => limbMax (s.reg a) + limbMax (s.reg b) < 2 ^ 63
  | .sub _ a b => limbMax (s.reg a) + limbMax (s.reg b) < 2 ^ 63
  | .mul _ a b => 571 * limbMax (s.reg a) * limbMax (s.reg b) ≤ 2 ^ 62
  | .carry _ a => limbMax (s.reg a) ≤ 2 ^ 62
  | .inv _ a => limbMax (s.reg a) ≤ 2 ^ 26
  | .swap _ _ _ => True

/-- The transaction issues no illegal word. -/
def HostTxn.legal : HostTxn → Bool
  | .issue w => match decode w with
    | .command _ => true
    | .illegal _ => false
  | _ => true

/-- The host's stream holds no illegal word: the streams about which R64 lets a model make claims (log entry 6). -/
def LegalStream (s : State) : Bool := s.host.all HostTxn.legal

/-! ### What a command reads and writes -/

/-- A place of the architectural state: an element register or a byte of PM. -/
inductive Loc where
  | reg (r : EReg)
  | byte (a : Addr)
  deriving DecidableEq, Repr

/-- The 32 bytes of a slot, in rising order (R41). -/
def slotLocs (n : Slot) : List Loc := (List.range 32).map fun j => .byte (byteAddr (slotAddr n) j)

/-- What a command reads: its named sources (R8, R22, R46). -/
def cmdReads : Instr → List Loc
  | .unpack _ a => slotLocs a
  | .pack _ a => [.reg a]
  | .add _ a b => [.reg a, .reg b]
  | .sub _ a b => [.reg a, .reg b]
  | .mul _ a b => [.reg a, .reg b]
  | .carry _ a => [.reg a]
  | .inv _ a => [.reg a]
  | .swap a b _ => [.reg a, .reg b]

/-- What a command writes: its named destinations (R8, R22, R46). -/
def cmdWrites : Instr → List Loc
  | .unpack d _ => [.reg d]
  | .pack d _ => slotLocs d
  | .add d _ _ => [.reg d]
  | .sub d _ _ => [.reg d]
  | .mul d _ _ => [.reg d]
  | .carry d _ => [.reg d]
  | .inv d _ => [.reg d]
  | .swap a b _ => [.reg a, .reg b]

/-- One access of a command to E or PM. -/
inductive Access where
  | read (l : Loc)
  | write (l : Loc)
  deriving DecidableEq, Repr

/-- The sequence of accesses of a command: all of its sources, then all of its destinations (R7, R47); SWAP writes both
registers for either `k` (R142). A table that exec does not consult: DESIGN CHOICE, log entry 10. -/
def cmdAccesses (i : Instr) : List Access := (cmdReads i).map .read ++ (cmdWrites i).map .write

/-- An access with the register or slot number left out: whether it writes, and the byte of the slot if it is to PM. -/
def Access.shape : Access → Bool × Option Nat
  | .read (.reg _) => (false, none)
  | .read (.byte a) => (false, some (a.toNat % 32))
  | .write (.reg _) => (true, none)
  | .write (.byte a) => (true, some (a.toNat % 32))

/-- The transaction may write the place: HostWrite its byte, a legal command its destinations, Reset everything (R8, R45,
R170). -/
def HostTxn.mayWrite (x : HostTxn) (l : Loc) : Bool :=
  match x with
  | .issue w => match decode w with
    | .command i => (cmdWrites i).contains l
    | .illegal _ => false
  | .hostWrite a _ => l == .byte a
  | .hostRead _ => false
  | .reset => true
  | .resetDuring _ => true

/-- Two states hold the same at a place. -/
def SameAt (s t : State) : Loc → Prop
  | .reg r => s.reg r = t.reg r
  | .byte a => Memory.read s.pm a = Memory.read t.pm a

/-- The model's own fields are the same in both states (log entries 3 to 5). -/
def SameHostSide (s t : State) : Prop := s.host = t.host ∧ s.answers = t.answers ∧ s.resets = t.resets

/-- The time of a command: OPEN, a function of its opcode alone (R178, R179; log entry 10). -/
def cmdLatency (i : Instr) : Nat := Config.latency i.opcode

/-! ### The field machine that the engine implements within its bounds -/

/-- Eight registers that hold elements of the field, eight slots that hold integers. -/
structure FieldState where
  regs : Vector (ZMod Config.p) 8
  slots : Vector Nat 8

/-- What a state of the engine stands for: `fe(E[r])` and `int(P[n])` (R17, R18). -/
def fieldView (s : State) : FieldState where
  regs := Vector.ofFn fun r => ((val (s.reg r) : Int) : ZMod Config.p)
  slots := Vector.ofFn fun n => packedInt (s.slot n)

/-- A command on field elements: UNPACK drops bit 255 (R82), PACK gives the canonical representative (R88), ADD, SUB and MUL
are those of the field (R104, R113), CARRY changes nothing (R122), INV is the power `p - 2` (R132), SWAP exchanges
(R143). -/
def fieldExec (i : Instr) (f : FieldState) : FieldState :=
  match i with
  | .unpack d a => { f with regs := f.regs.set d ((f.slots[a] % 2 ^ 255 : Nat) : ZMod Config.p) }
  | .pack d a => { f with slots := f.slots.set d f.regs[a].val }
  | .add d a b => { f with regs := f.regs.set d (f.regs[a] + f.regs[b]) }
  | .sub d a b => { f with regs := f.regs.set d (f.regs[a] - f.regs[b]) }
  | .mul d a b => { f with regs := f.regs.set d (f.regs[a] * f.regs[b]) }
  | .carry d a => { f with regs := f.regs.set d f.regs[a] }
  | .inv d a => { f with regs := f.regs.set d (f.regs[a] ^ (Config.p - 2)) }
  | .swap a b k =>
    { f with regs := if k = 1 then (f.regs.set a f.regs[b]).set b f.regs[a] else f.regs }

/-! ### The invariant -/

/-- PM is in its canonical form: cells at rising addresses below 256, none holding what an unlisted address reads as. -/
abbrev Inv (s : State) : Prop := Memory.wf s.pm = true

end Sys2Proof.Machine
end

