-- ==== Sys2Proof/Certificates/Slice0/Obligations.lean ====
section
/-! DEFINITION. The statements about the FE25519 engine, for the provers. Each docstring names the rule of spec/ it formalises. -/

open Sys2Proof Sys2Proof.Machine

/-! ### Command words -/

/-- Command words written out in 95_test_vectors.md (V48 to V63, P2 to P5) decode to the commands they stand for, and the
illegal ones listed there to `Illegal`. -/
def Obligations.SpecWordsDecode : Prop :=
  decode 0x1000 = .command (.unpack 0 0) ∧
  decode 0x1240 = .command (.unpack 1 1) ∧
  decode 0x2240 = .command (.pack 1 1) ∧
  decode 0x3408 = .command (.add 2 0 1) ∧
  decode 0x4488 = .command (.sub 2 2 1) ∧
  decode 0x5440 = .command (.mul 2 1 0) ∧
  decode 0x5800 = .command (.sqr 4 0) ∧
  decode 0x6680 = .command (.carry 3 2) ∧
  decode 0x7200 = .command (.inv 1 0) ∧
  decode 0x7FC0 = .command (.inv 7 7) ∧
  decode 0x8009 = .command (.swap 0 1 1) ∧
  decode 0x8008 = .command (.swap 0 1 0) ∧
  decode 0x80d9 = .command (.swap 3 3 1) ∧
  decode 0x0000 = .illegal .reservedOpcode ∧
  decode 0xFFFF = .illegal .reservedOpcode ∧
  decode 0x9000 = .illegal .reservedOpcode ∧
  decode 0x3409 = .illegal .nonzeroK ∧
  decode 0x1008 = .illegal .nonzeroB ∧
  decode 0x8209 = .illegal .nonzeroD ∧
  decode 0x3402 = .illegal .nonzeroZ ∧
  decode 0x3404 = .illegal .nonzeroZ

/-- R66: the assembler table. Every syntax row has its word, its command and its text. -/
def Obligations.SyntaxTableAssembles : Prop :=
  (∀ d a : Fin 8,
    (asm (.unpack d a) = "UNPACK E" ++ digit d ++ ", P" ++ digit a ∧
      decode (BitVec.ofNat 16 (0x1000 + d.val * 512 + a.val * 64)) = .command (.unpack d a)) ∧
    (asm (.pack d a) = "PACK P" ++ digit d ++ ", E" ++ digit a ∧
      decode (BitVec.ofNat 16 (0x2000 + d.val * 512 + a.val * 64)) = .command (.pack d a)) ∧
    (asm (.carry d a) = "CARRY E" ++ digit d ++ ", E" ++ digit a ∧
      decode (BitVec.ofNat 16 (0x6000 + d.val * 512 + a.val * 64)) = .command (.carry d a)) ∧
    (asm (.inv d a) = "INV E" ++ digit d ++ ", E" ++ digit a ∧
      decode (BitVec.ofNat 16 (0x7000 + d.val * 512 + a.val * 64)) = .command (.inv d a))) ∧
  (∀ d a b : Fin 8,
    (asm (.add d a b) = "ADD E" ++ digit d ++ ", E" ++ digit a ++ ", E" ++ digit b ∧
      decode (BitVec.ofNat 16 (0x3000 + d.val * 512 + a.val * 64 + b.val * 8)) = .command (.add d a b)) ∧
    (asm (.sub d a b) = "SUB E" ++ digit d ++ ", E" ++ digit a ++ ", E" ++ digit b ∧
      decode (BitVec.ofNat 16 (0x4000 + d.val * 512 + a.val * 64 + b.val * 8)) = .command (.sub d a b)) ∧
    (asm (.mul d a b) = "MUL E" ++ digit d ++ ", E" ++ digit a ++ ", E" ++ digit b ∧
      decode (BitVec.ofNat 16 (0x5000 + d.val * 512 + a.val * 64 + b.val * 8)) = .command (.mul d a b))) ∧
  (∀ a b : Fin 8,
    (asm (.swap a b 0) = "SWAP E" ++ digit a ++ ", E" ++ digit b ++ ", 0" ∧
      decode (BitVec.ofNat 16 (0x8000 + a.val * 64 + b.val * 8)) = .command (.swap a b 0)) ∧
    (asm (.swap a b 1) = "SWAP E" ++ digit a ++ ", E" ++ digit b ++ ", 1" ∧
      decode (BitVec.ofNat 16 (0x8000 + a.val * 64 + b.val * 8 + 1)) = .command (.swap a b 1)))

/-- R62: a word selects a command exactly when `w & mask = match`, with the fields at their bits, and the word value of a
command is `op·4096 + d·512 + a·64 + b·8 + k`. -/
def Obligations.WordsSelectByMaskAndMatch : Prop :=
  (∀ w : CmdWord,
    ((∃ d a, decode w = .command (.unpack d a)) ↔ w &&& 0xF03F = 0x1000) ∧
    ((∃ d a, decode w = .command (.pack d a)) ↔ w &&& 0xF03F = 0x2000) ∧
    ((∃ d a b, decode w = .command (.add d a b)) ↔ w &&& 0xF007 = 0x3000) ∧
    ((∃ d a b, decode w = .command (.sub d a b)) ↔ w &&& 0xF007 = 0x4000) ∧
    ((∃ d a b, decode w = .command (.mul d a b)) ↔ w &&& 0xF007 = 0x5000) ∧
    ((∃ d a, decode w = .command (.carry d a)) ↔ w &&& 0xF03F = 0x6000) ∧
    ((∃ d a, decode w = .command (.inv d a)) ↔ w &&& 0xF03F = 0x7000) ∧
    ((∃ a b k, decode w = .command (.swap a b k)) ↔ w &&& 0xFE06 = 0x8000)) ∧
  (∀ d a b : Fin 8, ∀ k : BitVec 1,
    (encode (.unpack d a)).toNat = 1 * 4096 + d.val * 512 + a.val * 64 ∧
    (encode (.pack d a)).toNat = 2 * 4096 + d.val * 512 + a.val * 64 ∧
    (encode (.add d a b)).toNat = 3 * 4096 + d.val * 512 + a.val * 64 + b.val * 8 ∧
    (encode (.sub d a b)).toNat = 4 * 4096 + d.val * 512 + a.val * 64 + b.val * 8 ∧
    (encode (.mul d a b)).toNat = 5 * 4096 + d.val * 512 + a.val * 64 + b.val * 8 ∧
    (encode (.carry d a)).toNat = 6 * 4096 + d.val * 512 + a.val * 64 ∧
    (encode (.inv d a)).toNat = 7 * 4096 + d.val * 512 + a.val * 64 ∧
    (encode (.swap a b k)).toNat = 8 * 4096 + a.val * 64 + b.val * 8 + k.toNat) ∧
  (∀ (w : CmdWord) (i : Instr), decode w = .command i → encode i = w)

/-- Decoding the word of a well-formed command gives the command back, with every operand at every value (the encoding of
30_encoding.md R62, the decoder of R64). -/
def Obligations.DecodeOfEncode : Prop :=
  ∀ i : Instr, i.wellFormed = true → decode (encode i) = .command i

/-- The illegal words are exactly those that 30_encoding.md lists; the rows are disjoint; 1920 words are legal and 63616
illegal; an illegal word is not executed. The last clause follows the spec's "E and PM are unchanged", where the spec also
advises a model to refuse such a stream: the choice is log entry 6. -/
def Obligations.IllegalWordsAreTheListedOnes : Prop :=
  (∀ w : CmdWord, (∃ why, decode w = .illegal why) ↔
    (w.toNat / 4096 = 0 ∨ 9 ≤ w.toNat / 4096) ∨
    w.toNat / 2 % 4 ≠ 0 ∨
    (w.toNat / 4096 ∈ [1, 2, 6, 7] ∧ (w.toNat / 8 % 8 ≠ 0 ∨ w.toNat % 2 = 1)) ∨
    (w.toNat / 4096 ∈ [3, 4, 5] ∧ w.toNat % 2 = 1) ∨
    (w.toNat / 4096 = 8 ∧ w.toNat / 512 % 8 ≠ 0)) ∧
  (∀ (w : CmdWord) (r q : CmdRow), r ∈ cmdRows → q ∈ cmdRows →
    w &&& r.mask = r.pattern → w &&& q.mask = q.pattern → r = q) ∧
  (∀ op : Opcode, Set.ncard {w : CmdWord | ∃ i : Instr, i.opcode = op ∧ decode w = .command i} =
    match op with
    | .unpack => 64
    | .pack => 64
    | .carry => 64
    | .inv => 64
    | .add => 512
    | .sub => 512
    | .mul => 512
    | .swap => 128) ∧
  Set.ncard {w : CmdWord | ∃ i, decode w = .command i} = 1920 ∧
  Set.ncard {w : CmdWord | ∃ why, decode w = .illegal why} = 63616 ∧
  (∃ why, decode 0x0000 = .illegal why) ∧ (∃ why, decode 0xFFFF = .illegal why) ∧
  (∀ (w : CmdWord) (why : IllegalWord) (s : State), decode w = .illegal why → hostStep (.issue w) s = .next s)

/-! ### Steps and host transactions -/

/-- A step whose next transaction issues `w` runs the decoded command on the state without that transaction, and leaves that
state unchanged when `w` is illegal (the step function of 30_encoding.md R69, on the model's host stream, log entries 4 and
6). `setHost rest` changes the host's stream only; `withFetchWord` puts an Issue in front of it. -/
def Obligations.StepRunsTheDecodedCommand : Prop :=
  (∀ (s : State) (w : CmdWord) (rest : List HostTxn), s.host = .issue w :: rest →
    (∀ i, decode w = .command i → step s = exec i (s.setHost rest)) ∧
    (∀ why, decode w = .illegal why → step s = .next (s.setHost rest)) ∧
    (∀ r, (s.setHost rest).reg r = s.reg r) ∧ (s.setHost rest).pm = s.pm ∧ (s.setHost rest).host = rest ∧
    (s.setHost rest).answers = s.answers ∧ (s.setHost rest).resets = s.resets) ∧
  (∀ (s : State) (w : CmdWord) (i : Instr), decode w = .command i → i.wellFormed = true ∧
    step (s.withFetchWord 16 w.toNat) = exec i s)

/-- HostWrite sets one byte of PM, HostRead returns one byte, and neither changes anything else (20_memory.md R45; that the
answer goes to `answers` and the transaction comes from `host` is the model's choice, log entries 4 and 5). -/
def Obligations.HostByteTransactions : Prop :=
  (∀ (s : State) (addr : Addr) (v : Byte) (rest : List HostTxn), s.host = .hostWrite addr v :: rest →
    ∃ t, step s = .next t ∧ Memory.read t.pm addr = v ∧
      (∀ a, a ≠ addr → Memory.read t.pm a = Memory.read s.pm a) ∧ (∀ r, t.reg r = s.reg r) ∧
      t.host = rest ∧ t.answers = s.answers ∧ t.resets = s.resets) ∧
  (∀ (s : State) (addr : Addr) (rest : List HostTxn), s.host = .hostRead addr :: rest →
    ∃ t, step s = .next t ∧ t.answers = Memory.read s.pm addr :: s.answers ∧
      (∀ a, Memory.read t.pm a = Memory.read s.pm a) ∧ (∀ r, t.reg r = s.reg r) ∧
      t.host = rest ∧ t.resets = s.resets)

/-- With no transaction pending a step changes nothing (the model's choice, log entries 4 and 7, from "the engine never acts
except in response to a command word"). -/
def Obligations.EngineIdlesWithoutTransactions : Prop :=
  ∀ s : State, s.host = [] → step s = .next s

/-- A Reset, also one that abandons a command, leaves the engine ready for the host's next transaction, whatever the contents
of E and PM then are (70_reset_and_hazards.md R170); the host stream, PM in the model's canonical form and the count of the
resets are the model's choice (log entries 2, 3, 4 and 8). -/
def Obligations.ResetLeavesTheEngineReady : Prop :=
  ∀ (s : State) (x : HostTxn) (rest : List HostTxn), s.host = x :: rest → (x = .reset ∨ ∃ w, x = .resetDuring w) →
    ∃ t, step s = .next t ∧ t.host = rest ∧ t.answers = s.answers ∧ t.resets = s.resets + 1 ∧ Memory.wf t.pm = true

/-- A read returns the value of the latest earlier write to the same byte, whatever transactions that do not write the byte
stand between (20_memory.md R49). The model's choice: the host stream and the answers (log entries 4 and 5), and that an
illegal word among those transactions changes nothing and is not refused (log entry 6). -/
def Obligations.HostReadReturnsTheLatestWrite : Prop :=
  ∀ (s : State) (addr : Addr) (v : Byte) (between rest : List HostTxn),
    s.host = .hostWrite addr v :: (between ++ .hostRead addr :: rest) →
    (∀ x ∈ between, x.mayWrite (.byte addr) = false) →
    ∃ t, Host.Core.run Sys2Proof.core (between.length + 2) s = .next t ∧ t.answers.head? = some v ∧ t.host = rest

/-! ### The whole machine -/

/-- Every command, on every state, answers a next state: none raises anything, stops early or refuses (10_state.md R31,
60_exceptions.md R150). -/
def Obligations.EveryCommandCompletes : Prop :=
  ∀ (i : Instr) (s : State), ∃ t, exec i s = .next t

/-- A finite stream of transactions always runs to its end, one step each, from every state (70_reset_and_hazards.md R180).
The model's choice: the host stream (log entry 4), and that a stream with illegal words completes and is not refused (log
entry 6). -/
def Obligations.StreamRunsToItsEnd : Prop :=
  ∀ s : State, ∃ t, Host.Core.run Sys2Proof.core s.host.length s = .next t ∧ t.host = []

/-- PM keeps its canonical form in every step of every state that has it (10_state.md R27). The model's choice: the form (log
entry 2), and the steps that are not the spec's commands: the host stream, an illegal word and the idle step (log entries 4, 6
and 7). -/
def Obligations.StepKeepsMemoryCanonical : Prop :=
  ∀ s t : State, Inv s → step s = .next t → Inv t

/-- The state after reset has PM in its canonical form, with nothing pending: all of it the model's choice (log entries 2, 4
and 5), since 10_state.md R30 leaves E and PM unspecified. -/
def Obligations.ResetStateIsCanonical : Prop :=
  Inv State.reset ∧ State.reset.host = [] ∧ State.reset.answers = []

/-- Canonical memories that read alike at all 256 addresses are equal data (20_memory.md R41: the map is complete; the form is
the model's, log entry 2). -/
def Obligations.CanonicalMemoriesReadingAlikeAreEqual : Prop :=
  ∀ m m' : Memory, Memory.wf m = true → Memory.wf m' = true → (∀ a, Memory.read m a = Memory.read m' a) → m = m'

/-- A byte of PM changes only by a HostWrite to it, by PACK to its slot, or by Reset (10_state.md R27, 20_memory.md R45, R46).
The model's choice: the host stream (log entry 4), that an illegal word changes no byte and is not refused (log entry 6), that
the idle step changes none (log entry 7), and the Reset that abandons a command (log entry 8). -/
def Obligations.BytesChangeOnlyByTheirWriters : Prop :=
  ∀ (s t : State) (a : Addr), step s = .next t → Memory.read t.pm a ≠ Memory.read s.pm a →
    ∃ x rest, s.host = x :: rest ∧
      ((∃ v, x = .hostWrite a v) ∨
       (∃ w d r, x = .issue w ∧ decode w = .command (.pack d r) ∧ 32 * d.val ≤ a.toNat ∧ a.toNat < 32 * d.val + 32) ∨
       x = .reset ∨ ∃ w, x = .resetDuring w)

/-- An element register changes only by a command that names it as a destination, or by Reset; the host has no transaction
that writes a limb (10_state.md R22, 20_memory.md R45). The model's choice: the host stream (log entry 4), that an illegal
word changes no register and is not refused (log entry 6), that the idle step changes none (log entry 7), and the Reset that
abandons a command (log entry 8). -/
def Obligations.RegistersChangeOnlyByTheirCommands : Prop :=
  ∀ (s t : State) (r : EReg), step s = .next t → t.reg r ≠ s.reg r →
    ∃ x rest, s.host = x :: rest ∧
      ((∃ w i, x = .issue w ∧ decode w = .command i ∧
         ((∃ a, i = .unpack r a) ∨ (∃ a b, i = .add r a b) ∨ (∃ a b, i = .sub r a b) ∨ (∃ a b, i = .mul r a b) ∨
          (∃ a, i = .carry r a) ∨ (∃ a, i = .inv r a) ∨ (∃ b k, i = .swap r b k) ∨ (∃ a k, i = .swap a r k))) ∨
       x = .reset ∨ ∃ w, x = .resetDuring w)

/-- A command reads no state other than its named sources, and writes none other than its named destinations (00_scope.md R8;
the sources and destinations are those of 10_state.md R22 and 20_memory.md R46). The host's side, which no command changes, is
the model's own fields (log entries 3 to 5). -/
def Obligations.CommandsDependOnlyOnTheirSources : Prop :=
  (∀ (i : Instr) (s₁ s₂ t₁ t₂ : State), (∀ l ∈ cmdReads i, SameAt s₁ s₂ l) →
    exec i s₁ = .next t₁ → exec i s₂ = .next t₂ → ∀ l ∈ cmdWrites i, SameAt t₁ t₂ l) ∧
  (∀ (i : Instr) (s t : State), exec i s = .next t → (∀ l, l ∉ cmdWrites i → SameAt s t l) ∧ SameHostSide s t)

/-- What the host can see (PM and the bytes it was answered) does not depend on the element registers, except through PACK:
two states that differ only in E look the same to the host after any step that is not a PACK or a Reset (10_state.md R22,
92_eei_decisions.md D20). The model's choice: what the host sees and does stands in the fields `answers` and `host` (log
entries 4 and 5), an illegal word changes nothing and is not refused (log entry 6), and so does the idle step (log entry 7).
-/
def Obligations.LimbsReachTheHostOnlyThroughPack : Prop :=
  ∀ s₁ s₂ t₁ t₂ : State, s₁.pm = s₂.pm → SameHostSide s₁ s₂ →
    (∀ w rest d a, s₁.host = .issue w :: rest → decode w ≠ .command (.pack d a)) →
    (∀ rest, s₁.host ≠ .reset :: rest) → (∀ w rest, s₁.host ≠ .resetDuring w :: rest) →
    step s₁ = .next t₁ → step s₂ = .next t₂ → t₁.pm = t₂.pm ∧ SameHostSide t₁ t₂

/-- THE MODEL'S CHOICE (log entry 10): the time of a command is an open function that takes the opcode alone, and its accesses
are a table, `cmdAccesses`, that exec does not consult. On that choice: the time, and the sequence of accesses but for the
register and slot numbers, are functions of the opcode alone; SWAP makes the same accesses for both values of the swap bit;
UNPACK reads and PACK writes all 32 bytes of its slot and no other. It is the shape of the contract in 70_reset_and_hazards.md
R178, 45_swap.md R142 and 20_memory.md R47; that exec reads and writes no more than the table says is
`CommandsDependOnlyOnTheirSources`. -/
def Obligations.TimeAndAccessesIgnoreData : Prop :=
  (∀ i j : Instr, i.opcode = j.opcode →
    cmdLatency i = cmdLatency j ∧ (cmdAccesses i).map Access.shape = (cmdAccesses j).map Access.shape) ∧
  (∀ a b : EReg, cmdAccesses (.swap a b 0) = cmdAccesses (.swap a b 1)) ∧
  (∀ (d : EReg) (a : Slot) (x : Addr),
    Access.read (.byte x) ∈ cmdAccesses (.unpack d a) ↔ 32 * a.val ≤ x.toNat ∧ x.toNat < 32 * a.val + 32) ∧
  (∀ (d : Slot) (a : EReg) (x : Addr),
    Access.write (.byte x) ∈ cmdAccesses (.pack d a) ↔ 32 * d.val ≤ x.toNat ∧ x.toNat < 32 * d.val + 32)

/-! ### Frames -/

/-- UNPACK, ADD, SUB, MUL, CARRY and INV write `E[d]` only: every other register, every byte of PM and the host's side are
unchanged (R81, R101, R103, R111, R121, R131). -/
def Obligations.RegisterCommandsFrame : Prop :=
  ∀ (d : EReg) (i : Instr) (s t : State),
    ((∃ a, i = .unpack d a) ∨ (∃ a b, i = .add d a b) ∨ (∃ a b, i = .sub d a b) ∨ (∃ a b, i = .mul d a b) ∨
      (∃ a, i = .carry d a) ∨ (∃ a, i = .inv d a)) →
    exec i s = .next t →
    (∀ r, r ≠ d → t.reg r = s.reg r) ∧ (∀ a : Addr, Memory.read t.pm a = Memory.read s.pm a) ∧
    t.host = s.host ∧ t.answers = s.answers ∧ t.resets = s.resets

/-- PACK writes the 32 bytes of slot `d`, from `slotAddr d` on, only: every byte outside them, every register (its source too)
and the host's side are unchanged (R46, R87). -/
def Obligations.PackFrame : Prop :=
  ∀ (d : Slot) (a : EReg) (s t : State), exec (.pack d a) s = .next t →
    (∀ x : Addr, x.toNat < (slotAddr d).toNat ∨ (slotAddr d).toNat + 32 ≤ x.toNat →
      Memory.read t.pm x = Memory.read s.pm x) ∧
    (∀ r, t.reg r = s.reg r) ∧ t.host = s.host ∧ t.answers = s.answers ∧ t.resets = s.resets

/-- SWAP writes `E[a]` and `E[b]` only (R141). -/
def Obligations.SwapFrame : Prop :=
  ∀ (a b : EReg) (k : BitVec 1) (s t : State), exec (.swap a b k) s = .next t →
    (∀ r, r ≠ a → r ≠ b → t.reg r = s.reg r) ∧ (∀ x : Addr, Memory.read t.pm x = Memory.read s.pm x) ∧
    t.host = s.host ∧ t.answers = s.answers ∧ t.resets = s.resets

/-! ### UNPACK -/

/-- R80, R81: UNPACK completes in every state; limb `i` of `E[d]` is byte `2i` plus 256 times byte `2i+1` of the slot, limb 15
modulo 2^15; nothing else changes. Nothing is rejected. -/
def Obligations.UnpackWritesTheLimbs : Prop :=
  ∀ (d : EReg) (a : Slot) (s : State),
    decode (BitVec.ofNat 16 (0x1000 + d.val * 512 + a.val * 64)) = .command (.unpack d a) ∧
    ∃ t, exec (.unpack d a) s = .next t ∧
      (∀ i : Fin 16, (t.reg d)[i].toInt =
        let v := (Memory.read s.pm (BitVec.ofNat 8 (32 * a.val + 2 * i.val))).toNat +
          256 * (Memory.read s.pm (BitVec.ofNat 8 (32 * a.val + 2 * i.val + 1))).toNat
        if i.val = 15 then ((v % 2 ^ 15 : Nat) : Int) else ((v : Nat) : Int)) ∧
      (∀ r, r ≠ d → t.reg r = s.reg r) ∧ (∀ x : Addr, Memory.read t.pm x = Memory.read s.pm x) ∧ SameHostSide s t

/-- The spec's own derivation in 40_codec.md R82: the limbs of `fe_unpack(b)` are below 2^16, limb 15 below 2^15; its value is
`int(b) mod 2^255`; it forgets bit 7 of byte 31 and nothing else. -/
def Obligations.UnpackValueAndBounds : Prop :=
  (∀ (b : Packed) (i : Fin 16), 0 ≤ (feUnpack b)[i].toInt ∧ (feUnpack b)[i].toInt < 2 ^ 16 ∧
    (i.val = 15 → (feUnpack b)[i].toInt < 2 ^ 15)) ∧
  (∀ b : Packed, val (feUnpack b) = ((packedInt b % 2 ^ 255 : Nat) : Int)) ∧
  (∀ b b' : Packed, feUnpack b = feUnpack b' ↔
    (∀ j : Fin 32, j.val < 31 → b[j] = b'[j]) ∧ b[31].toNat % 128 = b'[31].toNat % 128)

/-! ### PACK -/

/-- R83, R86, R87: PACK completes in every state; the 32 bytes of slot `d` become `fe_pack(E[a])`, which is serialized after
two rounds on the result of three carry passes; nothing else changes, the source register included. -/
def Obligations.PackWritesTheSlot : Prop :=
  ∀ (d : Slot) (a : EReg) (s : State),
    decode (BitVec.ofNat 16 (0x2000 + d.val * 512 + a.val * 64)) = .command (.pack d a) ∧
    fePack (s.reg a) = feSerialize (subpRound (subpRound (feCarry (feCarry (feCarry (s.reg a)))))) ∧
    ∃ t, exec (.pack d a) s = .next t ∧
      (∀ j : Fin 32, Memory.read t.pm (BitVec.ofNat 8 (32 * d.val + j.val)) = (fePack (s.reg a))[j]) ∧
      (∀ x : Addr, x.toNat < 32 * d.val ∨ 32 * d.val + 32 ≤ x.toNat → Memory.read t.pm x = Memory.read s.pm x) ∧
      (∀ r, t.reg r = s.reg r) ∧ SameHostSide s t

/-- 40_codec.md R84, whose masks the spec supplies from general knowledge (D18): step 2 is two rounds; in one round, for any
limbs, with the borrows `w` (`w 0 = 0`) taken from bit 16 of the unmasked differences, the result is t when limb 15 borrows,
and otherwise the differences, limbs 0..14 reduced to their low 16 bits. -/
def Obligations.RoundSubtractsWithBorrows : Prop :=
  ∀ t : Elem, feCanonicalize t = subpRound (subpRound t) ∧ ∃ (w : Nat → Int) (m : Nat → Int),
    w 0 = 0 ∧
    (∀ i : Fin 16, m i.val =
      Int.bmod (t[i].toInt - (if i.val = 0 then 0xffed else if i.val = 15 then 0x7fff else 0xffff) - w i.val) (2 ^ 64)) ∧
    (∀ i : Fin 16, w (i.val + 1) = m i.val / 65536 % 2) ∧
    (w 16 = 1 → subpRound t = t) ∧
    (w 16 = 0 → ∀ i : Fin 16, (subpRound t)[i].toInt = if i.val = 15 then m i.val else m i.val % 65536)

/-- R85: bytes `2i` and `2i + 1` are bits 7:0 and 15:8 of limb `i`, for any limbs (the 8-bit mask of the high byte is the
spec's decision D19). -/
def Obligations.SerializeTakesTwoBytesPerLimb : Prop :=
  ∀ (t : Elem) (i : Fin 16),
    (feSerialize t)[2 * i.val].toNat = (t[i].toInt % 256).toNat ∧
    (feSerialize t)[2 * i.val + 1].toNat = (t[i].toInt / 256 % 256).toNat

/-- The spec's own derivation in 40_codec.md R88: within the bound, the three passes are exact and settle every limb, each
round subtracts p exactly when the value is at least p, and the output is the canonical representative with bit 7 of byte 31
clear. -/
def Obligations.PackIsCanonical : Prop :=
  ∀ n : Elem, limbMax n ≤ 2 ^ 62 →
    ints (feNormalize n) = carryZ (carryZ (carryZ (ints n))) ∧
    Settled (feNormalize n) ∧
    (0 ≤ val (feNormalize n) ∧ val (feNormalize n) < 2 ^ 256 ∧ fe (feNormalize n) = fe n) ∧
    (∀ t, t = feNormalize n ∨ t = subpRound (feNormalize n) →
      val (subpRound t) = if (Config.p : Int) ≤ val t then val t - Config.p else val t) ∧
    (0 ≤ val (feCanonicalize (feNormalize n)) ∧ val (feCanonicalize (feNormalize n)) < Config.p) ∧
    ((packedInt (fePack n) : Int) = fe n ∧ Canonical (fePack n) ∧ (fePack n)[31].toNat < 128)

/-- The spec's own derivation in 40_codec.md R90: the round trip is the identity exactly on canonical input; on `p ≤ int(b) <
2^255` it gives the encoding of `int(b) - p`, and with bit 7 of byte 31 set that of `(int(b) - 2^255) mod p`. -/
def Obligations.PackAfterUnpack : Prop :=
  (∀ b : Packed, packedInt b < Config.p → fePack (feUnpack b) = b) ∧
  (∀ b : Packed, Config.p ≤ packedInt b → packedInt b < 2 ^ 255 →
    fePack (feUnpack b) = packedOf (packedInt b - Config.p) ∧ packedInt b - Config.p < 19) ∧
  (∀ b : Packed, 128 ≤ b[31].toNat →
    fePack (feUnpack b) = packedOf ((packedInt b - 2 ^ 255) % Config.p))

/-! ### ADD and SUB -/

/-- R100, R101: ADD completes in every state, for every coincidence of d, a and b; each limb is the sum wrapped to 64 bits;
nothing else changes. -/
def Obligations.AddCommand : Prop :=
  ∀ (d a b : EReg) (s : State),
    decode (BitVec.ofNat 16 (0x3000 + d.val * 512 + a.val * 64 + b.val * 8)) = .command (.add d a b) ∧
    ∃ t, exec (.add d a b) s = .next t ∧
      (∀ i : Fin 16, (t.reg d)[i].toInt = Int.bmod ((s.reg a)[i].toInt + (s.reg b)[i].toInt) (2 ^ 64)) ∧
      (∀ r, r ≠ d → t.reg r = s.reg r) ∧ (∀ x : Addr, Memory.read t.pm x = Memory.read s.pm x) ∧ SameHostSide s t

/-- R102, R103: SUB completes in every state; each limb is `E[a][i] - E[b][i]` wrapped to 64 bits; nothing else changes. A
register subtracted from itself leaves sixteen zero limbs. -/
def Obligations.SubCommand : Prop :=
  ∀ (d a b : EReg) (s : State),
    decode (BitVec.ofNat 16 (0x4000 + d.val * 512 + a.val * 64 + b.val * 8)) = .command (.sub d a b) ∧
    ∃ t, exec (.sub d a b) s = .next t ∧
      (∀ i : Fin 16, (t.reg d)[i].toInt = Int.bmod ((s.reg a)[i].toInt - (s.reg b)[i].toInt) (2 ^ 64)) ∧
      (a = b → ∀ i : Fin 16, (t.reg d)[i] = 0) ∧
      (∀ r, r ≠ d → t.reg r = s.reg r) ∧ (∀ x : Addr, Memory.read t.pm x = Memory.read s.pm x) ∧ SameHostSide s t

/-- The spec's own derivation in 41_addsub.md R104: when every limb sum (difference) lies in `i64`, the values add (subtract)
as integers and the field elements in the field; magnitudes add. -/
def Obligations.AddAndSubAreExactInRange : Prop :=
  ∀ a b : Elem,
    ((∀ i : Fin 16, (-2 ^ 63 : Int) ≤ a[i].toInt + b[i].toInt ∧ a[i].toInt + b[i].toInt < 2 ^ 63) →
      val (feAdd a b) = val a + val b ∧ fe (feAdd a b) = (fe a + fe b) % Config.p ∧
      ∀ A B : Nat, (∀ i : Fin 16, a[i].toInt.natAbs ≤ A ∧ b[i].toInt.natAbs ≤ B) →
        ∀ i : Fin 16, (feAdd a b)[i].toInt.natAbs ≤ A + B) ∧
    ((∀ i : Fin 16, (-2 ^ 63 : Int) ≤ a[i].toInt - b[i].toInt ∧ a[i].toInt - b[i].toInt < 2 ^ 63) →
      val (feSub a b) = val a - val b ∧ fe (feSub a b) = (fe a - fe b) % Config.p ∧
      ∀ A B : Nat, (∀ i : Fin 16, a[i].toInt.natAbs ≤ A ∧ b[i].toInt.natAbs ≤ B) →
        ∀ i : Fin 16, (feSub a b)[i].toInt.natAbs ≤ A + B)

/-- The spec's own derivation in 41_addsub.md R105: adding `E[b]` and subtracting it again restores every limb, wrapped or
not, and so what PACK makes of it. -/
def Obligations.SubUndoesAdd : Prop :=
  (∀ a b : Elem, feSub (feAdd a b) b = a ∧ fePack (feSub (feAdd a b) b) = fePack a) ∧
  (∀ (d a b : EReg) (s t u : State), d ≠ b → exec (.add d a b) s = .next t → exec (.sub d d b) t = .next u →
    u.reg d = s.reg a)

/-! ### MUL -/

/-- R110, R111: MUL completes in every state; `E[d]` becomes two carry passes over limbs `o[k]`, the wrapped sum of the
products with `i + j = k` plus 38 times those with `i + j = k + 16` (none for k = 15); nothing else changes. -/
def Obligations.MulCommand : Prop :=
  ∀ (d a b : EReg) (s : State),
    decode (BitVec.ofNat 16 (0x5000 + d.val * 512 + a.val * 64 + b.val * 8)) = .command (.mul d a b) ∧
    ∃ (t : State) (o : Elem), exec (.mul d a b) s = .next t ∧
      (∀ k : Fin 16, o[k].toInt = Int.bmod
        ((∑ i : Fin 16, ∑ j : Fin 16, if i.val + j.val = k.val then (s.reg a)[i].toInt * (s.reg b)[j].toInt else 0)
          + 38 * ∑ i : Fin 16, ∑ j : Fin 16,
            if i.val + j.val = k.val + 16 then (s.reg a)[i].toInt * (s.reg b)[j].toInt else 0) (2 ^ 64)) ∧
      t.reg d = feCarry (feCarry o) ∧
      (∀ r, r ≠ d → t.reg r = s.reg r) ∧ (∀ x : Addr, Memory.read t.pm x = Memory.read s.pm x) ∧ SameHostSide s t

/-- The spec's own derivation in 42_mul.md R111: multiplication commutes limb for limb, for any limbs; and a zero operand
gives sixteen zero limbs. -/
def Obligations.MulCommutesLimbForLimb : Prop :=
  (∀ a b : Elem, feMul a b = feMul b a) ∧
  (∀ a b : Elem, (∀ i : Fin 16, a[i] = 0) → ∀ i : Fin 16, (feMul a b)[i] = 0)

/-- The spec's own derivation in 42_mul.md R112: entry 31 of the product is 0 for every input, and a fold at index 15 would
change nothing. -/
def Obligations.FoldAtFifteenIsNeutral : Prop :=
  ∀ a b : Elem, (convolve a b)[31] = 0 ∧
    truncate (foldBack (convolve a b)) =
      Vector.ofFn fun i : Fin 16 =>
        wrap64 ((convolve a b)[i.val].toInt + 38 * (convolve a b)[i.val + 16].toInt)

/-- The spec's own derivation in 42_mul.md R113: the bounds of the product's entries; and within `571·A·B ≤ 2^62` MUL is
exact, its limbs are bounded, and it is the product of the field. -/
def Obligations.MulIsTheFieldProduct : Prop :=
  (∀ (a b : Elem) (k : Nat), k ≤ 15 →
    (convolveZ (ints a) (ints b) k).natAbs ≤ (k + 1) * limbMax a * limbMax b ∧
    (convolveZ (ints a) (ints b) (k + 16)).natAbs ≤ (15 - k) * limbMax a * limbMax b ∧
    (∀ h : k < 16, (foldZ (convolveZ (ints a) (ints b)))[k].natAbs ≤ (571 - 37 * k) * limbMax a * limbMax b)) ∧
  (∀ a b : Elem, 571 * limbMax a * limbMax b ≤ 2 ^ 62 →
    ints (feMul a b) = mulZ (ints a) (ints b) ∧
    (∀ i : Fin 16, i.val ≠ 0 → 0 ≤ (feMul a b)[i].toInt ∧ (feMul a b)[i].toInt < 2 ^ 16) ∧
    ((-38 : Int) ≤ (feMul a b)[0].toInt ∧ (feMul a b)[0].toInt ≤ 2 ^ 16 + 37) ∧
    fe (feMul a b) = fe a * fe b % Config.p)

/-! ### CARRY -/

/-- R120, R121: CARRY completes in every state; with `c` the carries of one pass, limb 0 first and each taken after the limb
has received the one before, limbs 1..15 are reduced modulo 65536 and limb 0 also receives 38 times the last carry; nothing
else changes. -/
def Obligations.CarryCommand : Prop :=
  ∀ (d a : EReg) (s : State),
    decode (BitVec.ofNat 16 (0x6000 + d.val * 512 + a.val * 64)) = .command (.carry d a) ∧
    ∃ (t : State) (c : Nat → Int), exec (.carry d a) s = .next t ∧
      c 0 = 0 ∧ (∀ i : Fin 16, c (i.val + 1) = Int.bmod ((s.reg a)[i].toInt + c i.val) (2 ^ 64) / 2 ^ 16) ∧
      (t.reg d)[0].toInt = (s.reg a)[0].toInt % 65536 + 38 * c 16 ∧
      (∀ i : Fin 16, i.val ≠ 0 → (t.reg d)[i].toInt = ((s.reg a)[i].toInt + c i.val) % 65536) ∧
      (∀ r, r ≠ d → t.reg r = s.reg r) ∧ (∀ x : Addr, Memory.read t.pm x = Memory.read s.pm x) ∧ SameHostSide s t

/-- The spec's own derivation in 43_carry.md R122: after any pass limbs 1..15 are in [0, 2^16) and limb 0 is `(x[0] mod 65536)
+ 38·c15`; an exact pass takes `2·c15·p` from the value and keeps the field element; settled vectors are unchanged; the pass
is not idempotent. -/
def Obligations.CarryPassProperties : Prop :=
  (∀ (x : Elem) (i : Fin 16), i.val ≠ 0 → 0 ≤ (feCarry x)[i].toInt ∧ (feCarry x)[i].toInt < 2 ^ 16) ∧
  (∀ x : Elem, ∃ c : Nat → Int, c 0 = 0 ∧
    (∀ i : Fin 16, c (i.val + 1) = Int.bmod (x[i].toInt + c i.val) (2 ^ 64) / 2 ^ 16) ∧
    (feCarry x)[0].toInt = x[0].toInt % 65536 + 38 * c 16 ∧
    ((∀ i : Fin 16, (-2 ^ 63 : Int) ≤ x[i].toInt + c i.val ∧ x[i].toInt + c i.val < 2 ^ 63) →
      val (feCarry x) = val x - c 16 * (2 ^ 256 - 38) ∧ val (feCarry x) = val x - 2 * c 16 * Config.p ∧
      fe (feCarry x) = fe x)) ∧
  (∀ x : Elem, Settled x → feCarry x = x) ∧
  (∃ x : Elem, feCarry (feCarry x) ≠ feCarry x)

/-- The spec's own derivation in 43_carry.md R123: within the bound, the first pass is exact and leaves limb 0 below 2^53, the
second leaves it in [-38, 2^16 + 37], and the third settles every limb. -/
def Obligations.ThreePassesSettle : Prop :=
  ∀ x : Elem, limbMax x ≤ 2 ^ 62 →
    (ints (feCarry x) = carryZ (ints x) ∧ (feCarry x)[0].toInt.natAbs < 2 ^ 53) ∧
    (ints (feCarry (feCarry x)) = carryZ (carryZ (ints x)) ∧
      (-38 : Int) ≤ (feCarry (feCarry x))[0].toInt ∧ (feCarry (feCarry x))[0].toInt ≤ 2 ^ 16 + 37) ∧
    (ints (feCarry (feCarry (feCarry x))) = carryZ (carryZ (carryZ (ints x))) ∧
      Settled (feCarry (feCarry (feCarry x))))

/-! ### INV -/

/-- R130, R131: INV completes in every state; the accumulator starts at the input and, for bit positions 253 down to 0, is
squared and then, unless the position is 2 or 4, multiplied by the input, also when d = a; nothing else changes. -/
def Obligations.InvCommand : Prop :=
  ∀ (d a : EReg) (s : State),
    decode (BitVec.ofNat 16 (0x7000 + d.val * 512 + a.val * 64)) = .command (.inv d a) ∧
    ∃ (t : State) (acc : Nat → Elem), exec (.inv d a) s = .next t ∧
      acc 254 = s.reg a ∧
      (∀ i, i < 254 → acc i =
        if i ≠ 2 ∧ i ≠ 4 then feMul (feMul (acc (i + 1)) (acc (i + 1))) (s.reg a)
        else feMul (acc (i + 1)) (acc (i + 1))) ∧
      t.reg d = acc 0 ∧
      (∀ r, r ≠ d → t.reg r = s.reg r) ∧ (∀ x : Addr, Memory.read t.pm x = Memory.read s.pm x) ∧ SameHostSide s t

/-- The spec's own derivation in 44_inverse.md R134: the fixed schedule has 254 squarings and 252 multiplications, 506
operations in all. -/
def Obligations.InvScheduleCounts : Prop :=
  invChain.count .square = 254 ∧ invChain.count .multiply = 252 ∧ invChain.length = 506

/-- The spec's own derivation in 44_inverse.md R132 and R133: for limbs of magnitude at most 2^26 INV is exact, its limbs are
bounded as those of MUL, and it is the power `p - 2` of the field, so the inverse of a nonzero element and 0 of 0; zero limbs
give zero limbs (the converse, which R132 also claims, does not hold of its algorithm: log entry 12). -/
def Obligations.InvIsTheFieldInverse : Prop :=
  (∀ a : Elem, limbMax a ≤ 2 ^ 26 →
    ints (feInv a) = invZ (ints a) ∧
    ((val (feInv a) : Int) : ZMod Config.p) = ((val a : Int) : ZMod Config.p) ^ (Config.p - 2) ∧
    (fe a ≠ 0 → fe a * fe (feInv a) % Config.p = 1) ∧ (fe a = 0 → fe (feInv a) = 0) ∧
    (∀ i : Fin 16, i.val ≠ 0 → 0 ≤ (feInv a)[i].toInt ∧ (feInv a)[i].toInt < 2 ^ 16) ∧
    ((-38 : Int) ≤ (feInv a)[0].toInt ∧ (feInv a)[0].toInt ≤ 2 ^ 16 + 37)) ∧
  (∀ a : Elem, (∀ i : Fin 16, a[i] = 0) → ∀ i : Fin 16, (feInv a)[i] = 0)

/-- The spec's own derivation in 44_inverse.md R135: a packed element times its inverse packs to 1, unless it represents 0,
and then to 0. -/
def Obligations.ElementTimesInversePacksToOne : Prop :=
  (∀ b : Packed, packedInt b % 2 ^ 255 % Config.p ≠ 0 →
    fePack (feMul (feUnpack b) (feInv (feUnpack b))) = packedOf 1) ∧
  (∀ b : Packed, packedInt b % 2 ^ 255 % Config.p = 0 →
    fePack (feMul (feUnpack b) (feInv (feUnpack b))) = packedOf 0)

/-! ### SWAP -/

/-- R141: SWAP completes in every state; with k = 1 the two registers are exchanged limb for limb, with k = 0 both keep their
limbs, and with a = b the register is unchanged for either k; nothing else changes. -/
def Obligations.SwapCommand : Prop :=
  ∀ (a b : EReg) (k : BitVec 1) (s : State),
    decode (BitVec.ofNat 16 (0x8000 + a.val * 64 + b.val * 8 + k.toNat)) = .command (.swap a b k) ∧
    ∃ t, exec (.swap a b k) s = .next t ∧
      (k = 1 → t.reg a = s.reg b ∧ t.reg b = s.reg a) ∧ (k = 0 → t.reg a = s.reg a ∧ t.reg b = s.reg b) ∧
      (∀ r, r ≠ a → r ≠ b → t.reg r = s.reg r) ∧ (∀ x : Addr, Memory.read t.pm x = Memory.read s.pm x) ∧
      SameHostSide s t

/-- The spec's own derivation in 45_swap.md R143: the swap laws, and that SWAP with k = 1 issued twice restores the whole
state. -/
def Obligations.SwapLaws : Prop :=
  (∀ x y : Elem, feSwap x y 0 = (x, y) ∧ feSwap x y 1 = (y, x) ∧
    feSwap (feSwap x y 1).1 (feSwap x y 1).2 1 = (x, y)) ∧
  (∀ (a b : EReg) (s t : State), exec (.swap a b 1) s = .next t → exec (.swap a b 1) t = .next s)

/-! ### The field -/

/-- The spec's own derivation in 70_reset_and_hazards.md R174: the limbs of a command's result, when the command is within its
bounds. -/
def Obligations.ResultLimbsAreBounded : Prop :=
  (∀ (d : EReg) (a : Slot) (s t : State), exec (.unpack d a) s = .next t →
    Settled (t.reg d) ∧ (t.reg d)[15].toInt < 2 ^ 15) ∧
  (∀ (d a b : EReg) (s t : State), InBounds (.add d a b) s → exec (.add d a b) s = .next t →
    limbMax (t.reg d) ≤ limbMax (s.reg a) + limbMax (s.reg b)) ∧
  (∀ (d a b : EReg) (s t : State), InBounds (.sub d a b) s → exec (.sub d a b) s = .next t →
    limbMax (t.reg d) ≤ limbMax (s.reg a) + limbMax (s.reg b)) ∧
  (∀ (d a b : EReg) (s t : State), InBounds (.mul d a b) s → exec (.mul d a b) s = .next t →
    (∀ i : Fin 16, i.val ≠ 0 → 0 ≤ (t.reg d)[i].toInt ∧ (t.reg d)[i].toInt < 2 ^ 16) ∧
    (-38 : Int) ≤ (t.reg d)[0].toInt ∧ (t.reg d)[0].toInt ≤ 2 ^ 16 + 37) ∧
  (∀ (d a : EReg) (s t : State), InBounds (.carry d a) s → exec (.carry d a) s = .next t →
    (∀ i : Fin 16, i.val ≠ 0 → 0 ≤ (t.reg d)[i].toInt ∧ (t.reg d)[i].toInt < 2 ^ 16) ∧
    (t.reg d)[0].toInt.natAbs < 2 ^ 53) ∧
  (∀ (d a : EReg) (s t : State), InBounds (.inv d a) s → exec (.inv d a) s = .next t →
    (∀ i : Fin 16, i.val ≠ 0 → 0 ≤ (t.reg d)[i].toInt ∧ (t.reg d)[i].toInt < 2 ^ 16) ∧
    (-38 : Int) ≤ (t.reg d)[0].toInt ∧ (t.reg d)[0].toInt ≤ 2 ^ 16 + 37) ∧
  (∀ (d : Slot) (a : EReg) (s t : State), InBounds (.pack d a) s → exec (.pack d a) s = .next t →
    Canonical (t.slot d))

/-- Within the bounds of 70_reset_and_hazards.md R174 every command does on its limbs what its name says in the field: the
engine implements the field machine `fieldExec`, which gathers 40_codec.md R82 and R88, 41_addsub.md R104, 42_mul.md R113,
43_carry.md R122, 44_inverse.md R132 and 45_swap.md R143. -/
def Obligations.EngineImplementsTheFieldMachine : Prop :=
  ∀ (i : Instr) (s : State), InBounds i s → ∃ t, exec i s = .next t ∧ fieldView t = fieldExec i (fieldView s)
end

