-- ==== Sys2Proof/Laws/Word.lean ====
section
/-! SUPPORT. Laws of wrap64, of the arithmetic shift and of the borrow bit. -/

namespace Sys2Proof.Machine

theorem limb_lower (x : Limb) : -2 ^ 63 ≤ x.toInt := by
  have := BitVec.le_toInt x; simpa using this

theorem limb_upper (x : Limb) : x.toInt < 2 ^ 63 := by
  have := BitVec.toInt_lt (x := x); simpa using this

theorem wrap64_toInt (v : Int) : (wrap64 v).toInt = v.bmod (2 ^ 64) := BitVec.toInt_ofInt ..

/-- `wrap64` is the identity on an `i64` (R12). -/
theorem wrap64_toInt_of_range {v : Int} (lo : -2 ^ 63 ≤ v) (hi : v < 2 ^ 63) : (wrap64 v).toInt = v := by
  rw [wrap64_toInt]; exact Int.bmod_eq_of_le (by omega) (by omega)

@[simp] theorem wrap64_toInt_self (x : Limb) : wrap64 x.toInt = x := BitVec.ofInt_toInt ..

/-- `wrap64(v)` is `v` modulo 2^64 (R12). -/
theorem wrap64_emod (v : Int) : (wrap64 v).toInt % 2 ^ 64 = v % 2 ^ 64 := by
  rw [wrap64_toInt]; exact Int.bmod_emod ..

/-- Integers that are equal modulo 2^64 wrap to the same limb (R12). -/
theorem wrap64_congr {u v : Int} (h : u % 2 ^ 64 = v % 2 ^ 64) : wrap64 u = wrap64 v := by
  apply BitVec.eq_of_toInt_eq
  rw [wrap64_toInt, wrap64_toInt, Int.bmod_def, Int.bmod_def]
  have : (((2 : Nat) ^ 64 : Nat) : Int) = 2 ^ 64 := by norm_num
  rw [this, h]

theorem wrap64_add (x y : Limb) : wrap64 (x.toInt + y.toInt) = x + y := by
  simp [wrap64, BitVec.ofInt_add]

theorem wrap64_sub (x y : Limb) : wrap64 (x.toInt - y.toInt) = x - y := by
  apply BitVec.eq_of_toInt_eq
  rw [wrap64_toInt, BitVec.toInt_sub]

theorem wrap64_mul (x y : Limb) : wrap64 (x.toInt * y.toInt) = x * y := by
  simp [wrap64, BitVec.ofInt_mul]

/-- Wrapping an intermediate sum changes nothing in the wrapped result (R12). -/
@[simp] theorem wrap64_wrap_add (u v : Int) : wrap64 ((wrap64 u).toInt + v) = wrap64 (u + v) := by
  apply wrap64_congr
  rw [Int.add_emod, wrap64_emod, ← Int.add_emod]

@[simp] theorem wrap64_wrap_sub (u v : Int) : wrap64 ((wrap64 u).toInt - v) = wrap64 (u - v) := by
  simp [Int.sub_eq_add_neg]

/-- Reduction to the low 16 bits does not see the wrap (R12, R120). -/
theorem wrap64_emod_65536 (v : Int) : (wrap64 v).toInt % 65536 = v % 65536 := by
  have h := wrap64_emod v
  omega

theorem asr_def (x : Limb) (n : Nat) : asr x n = x.toInt / 2 ^ n := rfl

/-- The spec's floor is the machine's arithmetic shift (R13). -/
theorem asr_eq_sshiftRight (x : Limb) (n : Nat) : asr x n = (x.sshiftRight n).toInt := by
  rw [asr, BitVec.toInt_sshiftRight, Int.shiftRight_eq_div_pow]; norm_num

/-- Bit 16 of a limb, in integers (R14). -/
theorem borrowBit_eq_one_iff (m : Limb) : borrowBit m = 1 ↔ m.toInt / 65536 % 2 = 1 := by
  have h : borrowBit m = 1 ↔ (borrowBit m).toNat = 1 := by
    constructor
    · intro h; rw [h]; rfl
    · intro h; exact BitVec.eq_of_toNat_eq h
  rw [h, borrowBit, BitVec.extractLsb'_toNat, Nat.shiftRight_eq_div_pow]
  have := m.isLt
  rw [BitVec.toInt_eq_toNat_cond]
  split <;> omega

theorem borrowBit_eq (m : Limb) : borrowBit m = if m.toInt / 65536 % 2 = 1 then 1 else 0 := by
  split
  · exact (borrowBit_eq_one_iff m).2 ‹_›
  · have h : borrowBit m ≠ 1 := fun h => absurd ((borrowBit_eq_one_iff m).1 h) ‹_›
    revert h; generalize borrowBit m = b; revert b; decide

/-- A difference of 16-bit quantities borrows exactly when it is negative (R84, glossary "Borrow"). -/
theorem borrowBit_of_small {m : Limb} (lo : -65536 ≤ m.toInt) (hi : m.toInt < 65536) :
    borrowBit m = if m.toInt < 0 then 1 else 0 := by
  rw [borrowBit_eq]; congr 1; simp only [eq_iff_iff]; omega

/-- `x & 0xffff` is `x` modulo 65536 (R14). -/
theorem and_ffff_toInt (x : Limb) : (x &&& 0xffff).toInt = x.toInt % 65536 := by
  have h : (x &&& 0xffff).toNat = x.toNat % 65536 := by
    rw [BitVec.toNat_and]; exact Nat.and_two_pow_sub_one_eq_mod x.toNat 16
  have := x.isLt
  rw [BitVec.toInt_eq_toNat_cond, BitVec.toInt_eq_toNat_cond, h]
  split <;> split <;> omega

end Sys2Proof.Machine
end

