-- ==== Sys2Proof/Laws/Carry.lean ====
section
/-! SUPPORT. What one carry pass does, said once: the carry into each limb as a recurrence, and every limb of the result. -/

namespace Sys2Proof.Machine

/-- An invariant of a loop over `0 .. n-1`: it holds at the start and every iteration carries it one further. -/
theorem foldl_finRange_inv {n : Nat} {β : Type} (f : β → Fin n → β) (P : Nat → β → Prop) {b : β} (h0 : P 0 b)
    (hs : ∀ i (h : i < n) x, P i x → P (i + 1) (f x ⟨i, h⟩)) : P n ((List.finRange n).foldl f b) := by
  have key : ∀ k, k ≤ n → P k (((List.finRange n).take k).foldl f b) := by
    intro k
    induction k with
    | zero => intro _; simpa using h0
    | succ k ih =>
      intro hk
      have hlen : k < (List.finRange n).length := by simpa using hk
      rw [← List.take_concat_get' _ _ hlen, List.foldl_append]
      have := hs k (by omega) _ (ih (by omega))
      simpa using this
  have := key n le_rfl
  rwa [List.take_of_length_le (by simp)] at this

/-- The carry into limb `i` during a pass over `x`; `carryIn x 16` is the carry out of limb 15, `c15` of R122. -/
def carryIn (x : Elem) : Nat → Int
  | 0 => 0
  | i + 1 => if h : i < 16 then asr (wrap64 (x[i].toInt + carryIn x i)) 16 else 0

@[simp] theorem carryIn_zero (x : Elem) : carryIn x 0 = 0 := rfl

theorem carryIn_succ (x : Elem) {i : Nat} (h : i < 16) :
    carryIn x (i + 1) = (wrap64 (x[i].toInt + carryIn x i)).toInt / 65536 := by
  simp only [carryIn, h, dif_pos, asr]; norm_num

/-- `o[i] - c·65536` is `o[i] mod 65536` and never wraps (R120). -/
theorem reduced_toInt (v : Limb) : (wrap64 (v.toInt - asr v 16 * 65536)).toInt = v.toInt % 65536 := by
  have e : v.toInt - asr v 16 * 65536 = v.toInt % 65536 := by unfold asr; omega
  rw [e, wrap64_toInt_of_range] <;> omega

/-- The state of a pass before step `n`: limbs below `n` are reduced, limb `n` has received its carry, the rest is `x`. -/
structure CarryAt (x : Elem) (n : Nat) (o : Elem) : Prop where
  below : ∀ i (h : i < 16), i < n → o[i].toInt = (x[i].toInt + carryIn x i) % 65536
  at_n : ∀ h : n < 16, o[n] = wrap64 (x[n].toInt + carryIn x n)
  above : ∀ i (h : i < 16), n < i → o[i] = x[i]

theorem carryAt_step {x o : Elem} {n : Nat} (hn : n < 15) (ho : CarryAt x n o) :
    CarryAt x (n + 1) (carryStep o ⟨n, by omega⟩) := by
  have hat := ho.at_n (by omega)
  have hc : asr o[n] 16 = carryIn x (n + 1) := by rw [hat, carryIn_succ _ (by omega)]; rfl
  constructor
  · intro i h hi
    by_cases hin : i = n
    · subst hin
      simp only [carryStep, hn, dif_pos, Fin.getElem_fin]
      rw [Vector.getElem_set_ne _ _ (by omega), Vector.getElem_set_self, reduced_toInt, hat, wrap64_emod_65536]
    · simp only [carryStep, hn, dif_pos, Fin.getElem_fin]
      rw [Vector.getElem_set_ne _ _ (by omega), Vector.getElem_set_ne _ _ (by omega)]
      exact ho.below i h (by omega)
  · intro h
    simp only [carryStep, hn, dif_pos, Fin.getElem_fin, Vector.getElem_set_self]
    rw [Vector.getElem_set_ne _ _ (by omega), ho.above _ h (by omega), hc]
  · intro i h hi
    simp only [carryStep, hn, dif_pos, Fin.getElem_fin]
    rw [Vector.getElem_set_ne _ _ (by omega), Vector.getElem_set_ne _ _ (by omega)]
    exact ho.above i h (by omega)

theorem carryIn_abs_succ (x : Elem) {i : Nat} (h : i < 16) :
    -2 ^ 47 ≤ carryIn x (i + 1) ∧ carryIn x (i + 1) < 2 ^ 47 := by
  rw [carryIn_succ x h]
  have := limb_lower (wrap64 (x[i].toInt + carryIn x i))
  have := limb_upper (wrap64 (x[i].toInt + carryIn x i))
  omega

/-- Every carry fits 48 bits, so that `38 · c` cannot overflow (R120). -/
theorem carryIn_abs (x : Elem) {i : Nat} (h : i ≤ 16) : -2 ^ 47 ≤ carryIn x i ∧ carryIn x i < 2 ^ 47 := by
  cases i with
  | zero => constructor <;> norm_num
  | succ i => exact carryIn_abs_succ x (by omega)

/-- A carry pass, limb by limb (R120, R122). -/
structure CarryResult (x o : Elem) : Prop where
  limb0 : o[0].toInt = x[0].toInt % 65536 + 38 * carryIn x 16
  limb : ∀ i (h : i < 16), i ≠ 0 → o[i].toInt = (x[i].toInt + carryIn x i) % 65536

/-- The one lemma about `feCarry`: every limb of the result, from the carries. -/
theorem feCarry_result (x : Elem) : CarryResult x (feCarry x) := by
  have key := foldl_finRange_inv carryStep
    (fun n o => (n ≤ 15 → CarryAt x n o) ∧ (n = 16 → CarryResult x o)) (b := x)
    ⟨fun _ => ⟨fun _ _ hi => absurd hi (by omega), fun _ => by simp, fun _ _ _ => rfl⟩, fun h => absurd h (by omega)⟩
    (by
      rintro n hn o ⟨ho, -⟩
      by_cases h15 : n < 15
      · exact ⟨fun _ => carryAt_step h15 (ho (by omega)), fun h => absurd h (by omega)⟩
      · have : n = 15 := by omega
        subst this
        refine ⟨fun h => absurd h (by omega), fun _ => ?_⟩
        have ho := ho le_rfl
        have hat := ho.at_n (by omega)
        have hc : asr o[15] 16 = carryIn x 16 := by rw [hat, carryIn_succ _ (by omega)]; rfl
        have hb := carryIn_abs x (i := 16) le_rfl
        constructor
        · simp only [carryStep, Fin.getElem_fin, lt_irrefl, dif_neg, not_false_eq_true, Vector.getElem_set_self]
          rw [Vector.getElem_set_ne _ _ (by omega), ho.below 0 (by omega) (by omega), hc, carryIn_zero, Int.add_zero,
            wrap64_toInt_of_range] <;> omega
        · intro i h hi
          simp only [carryStep, Fin.getElem_fin, lt_irrefl, dif_neg, not_false_eq_true]
          rw [Vector.getElem_set_ne _ _ (by omega)]
          by_cases hi15 : i = 15
          · subst hi15
            rw [Vector.getElem_set_self, reduced_toInt, hat, wrap64_emod_65536]
          · rw [Vector.getElem_set_ne _ _ (by omega)]
            exact ho.below i h (by omega))
  exact key.2 rfl

theorem feCarry_limb0 (x : Elem) : (feCarry x)[0].toInt = x[0].toInt % 65536 + 38 * carryIn x 16 :=
  (feCarry_result x).limb0

theorem feCarry_limb (x : Elem) {i : Nat} (h : i < 16) (hi : i ≠ 0) :
    (feCarry x)[i].toInt = (x[i].toInt + carryIn x i) % 65536 := (feCarry_result x).limb i h hi

/-- While no limb wraps, the carries are floors of exact sums (R123). -/
theorem carryIn_succ_of_exact (x : Elem) {i : Nat} (h : i < 16) (lo : -2 ^ 63 ≤ x[i].toInt + carryIn x i)
    (hi : x[i].toInt + carryIn x i < 2 ^ 63) : carryIn x (i + 1) = (x[i].toInt + carryIn x i) / 65536 := by
  rw [carryIn_succ x h, wrap64_toInt_of_range lo hi]

end Sys2Proof.Machine
end

