-- ==== Sys2Proof/Laws/Codec.lean ====
section
/-! SUPPORT. The masked swap, the decoder's limbs, the candidate of pack's rounds and the serialized bytes, each said once. -/

namespace Sys2Proof.Machine

theorem bit_cases (k : BitVec 1) : k = 0 ∨ k = 1 := by revert k; decide

@[simp] theorem swapMask_zero : swapMask 0#1 = 0#64 := by decide

@[simp] theorem swapMask_one : swapMask 1#1 = BitVec.allOnes 64 := by decide

/-- Limb `i` of both results of a masked swap (R140). -/
theorem feSwap_getElem (x y : Elem) (k : BitVec 1) (i : Nat) (h : i < 16) :
    (feSwap x y k).1[i] = (if k = 1 then y[i] else x[i]) ∧ (feSwap x y k).2[i] = (if k = 1 then x[i] else y[i]) := by
  obtain rfl | rfl := bit_cases k
  · simp [feSwap]
  · have e : ∀ u v : Limb, u ^^^ (u ^^^ v) = v := fun u v => by rw [← BitVec.xor_assoc]; simp
    simp only [feSwap, Vector.getElem_ofFn, Fin.getElem_fin, BitVec.ofNat_eq_ofNat, swapMask_one, BitVec.allOnes_and, if_true]
    exact ⟨e _ _, by rw [BitVec.xor_comm x[i] y[i]]; exact e _ _⟩

theorem feSwap_fst (x y : Elem) (k : BitVec 1) : (feSwap x y k).1 = if k = 1 then y else x := by
  ext i h : 1
  rw [(feSwap_getElem x y k i h).1]; split <;> rfl

theorem feSwap_snd (x y : Elem) (k : BitVec 1) : (feSwap x y k).2 = if k = 1 then x else y := by
  ext i h : 1
  rw [(feSwap_getElem x y k i h).2]; split <;> rfl

/-! ### The decoder -/

theorem limbOfBytes_toNat (lo hi : Byte) : (limbOfBytes lo hi).toNat = lo.toNat + 256 * hi.toNat := by
  have := lo.isLt
  have := hi.isLt
  have h256 : BitVec.toNat (256 : Limb) = 256 := rfl
  simp only [limbOfBytes, BitVec.toNat_add, BitVec.toNat_mul, BitVec.toNat_setWidth, h256]
  omega

/-- Limb `i` of a decoded element, as an integer (R80). -/
theorem feUnpack_toNat (b : Packed) (i : Nat) (h : i < 16) :
    (feUnpack b)[i].toNat
      = if i = 15 then (b[2 * i].toNat + 256 * b[2 * i + 1].toNat) % 32768
        else b[2 * i].toNat + 256 * b[2 * i + 1].toNat := by
  simp only [feUnpack, Vector.getElem_ofFn]
  split
  · rw [BitVec.toNat_and, limbOfBytes_toNat]
    exact Nat.and_two_pow_sub_one_eq_mod _ 15
  · exact limbOfBytes_toNat ..

theorem toInt_of_toNat_lt {x : Limb} (h : x.toNat < 2 ^ 63) : x.toInt = x.toNat := by
  rw [BitVec.toInt_eq_toNat_cond, if_pos (by omega)]

/-! ### The rounds of pack -/

/-- The borrow into limb `i` of the candidate: bit 16 of the unmasked difference of limb `i - 1` (R84). -/
def borrowIn (t : Elem) : Nat → BitVec 1
  | 0 => 0
  | i + 1 => if h : i < 16 then borrowBit (subBorrow t[i] (if i = 0 then 0xffed else if i = 15 then 0x7fff else 0xffff)
      (borrowIn t i)) else 0

/-- Limb `i` of p (R9, `P_LIMBS`). -/
def pLimb (i : Nat) : Int := if i = 0 then 0xffed else if i = 15 then 0x7fff else 0xffff

/-- The unmasked difference of limb `i` (R84). -/
def difference (t : Elem) (i : Nat) (h : i < 16) : Limb := subBorrow t[i] (pLimb i) (borrowIn t i)

theorem borrowIn_succ (t : Elem) {i : Nat} (h : i < 16) : borrowIn t (i + 1) = borrowBit (difference t i h) := by
  simp only [borrowIn, h, dif_pos, difference, pLimb]

/-- The candidate before limb 15 is written and after `n` of the steps of R84. -/
structure CandidateAt (t : Elem) (n : Nat) (m : Elem) : Prop where
  below : ∀ i (h : i < 16), i < n → m[i] = difference t i h &&& 0xffff
  at_n : ∀ h : n < 16, m[n] = difference t n h

theorem candidateAt_step {t m : Elem} {n : Nat} (hn : n < 14) (hm : CandidateAt t n m) :
    CandidateAt t (n + 1) (candidateStep t m ⟨n, hn⟩) := by
  have hat := hm.at_n (by omega)
  have hb : borrowBit m[n] = borrowIn t (n + 1) := by rw [hat, borrowIn_succ]
  constructor
  · intro i h hi
    simp only [candidateStep]
    by_cases hin : i = n
    · subst hin
      rw [Vector.getElem_set_self, Vector.getElem_set_ne _ _ (by omega), hat]
    · rw [Vector.getElem_set_ne _ _ (by omega), Vector.getElem_set_ne _ _ (by omega)]
      exact hm.below i h (by omega)
  · intro h
    simp only [candidateStep]
    rw [Vector.getElem_set_ne _ _ (by omega), Vector.getElem_set_self, hb, difference, pLimb, if_neg (by omega),
      if_neg (by omega)]

/-- The one lemma about the candidate: its limbs 0..14 are the differences reduced to 16 bits, limb 15 is the unmasked
difference (R84). -/
theorem candidate_getElem (t : Elem) (i : Nat) (h : i < 16) :
    (candidate t)[i] = if i = 15 then difference t 15 (by omega) else difference t i h &&& 0xffff := by
  have h0 : CandidateAt t 0 ((Vector.replicate 16 0).set 0 (wrap64 (t[0].toInt - 0xffed))) :=
    ⟨fun _ _ hi => absurd hi (by omega), fun _ => by simp [difference, subBorrow, pLimb, borrowIn]⟩
  have key := foldl_finRange_inv (candidateStep t) (fun n m => CandidateAt t n m) h0
    fun n hn m hm => candidateAt_step hn hm
  have hat := key.at_n (by omega)
  have hb := borrowIn_succ t (i := 14) (by omega)
  have h15 : subBorrow t[15] 0x7fff (borrowBit (difference t 14 (by omega))) = difference t 15 (by omega) := by
    rw [← hb]; simp [difference, pLimb]
  simp only [candidate]
  by_cases hi15 : i = 15
  · subst hi15
    rw [Vector.getElem_set_ne _ _ (by omega), Vector.getElem_set_self, hat, h15, if_pos rfl]
  · rw [if_neg hi15]
    by_cases hi14 : i = 14
    · subst hi14
      rw [Vector.getElem_set_self, Vector.getElem_set_ne _ _ (by omega), hat]
    · rw [Vector.getElem_set_ne _ _ (by omega), Vector.getElem_set_ne _ _ (by omega)]
      exact key.below i h (by omega)

/-- One round: the candidate replaces t exactly when limb 15 of it does not borrow (R84). -/
theorem subpRound_eq (t : Elem) : subpRound t = if borrowIn t 16 = 1 then t else candidate t := by
  have hb : borrowBit (candidate t)[15] = borrowIn t 16 := by
    rw [candidate_getElem t 15 (by omega), if_pos rfl, ← borrowIn_succ]
  simp only [subpRound, hb, feSwap_fst]
  obtain h | h := bit_cases (borrowIn t 16) <;> simp [h]

/-! ### The serialized bytes -/

/-- Bytes `2i` and `2i + 1` are the two low bytes of limb `i` (R85). -/
theorem feSerialize_toNat (t : Elem) (j : Nat) (h : j < 32) :
    (feSerialize t)[j].toNat = if j % 2 = 0 then t[j / 2].toNat % 256 else t[j / 2].toNat / 256 % 256 := by
  have low : ∀ x : Limb, ((x &&& 0xff).setWidth 8).toNat = x.toNat % 256 := by
    intro x
    rw [BitVec.toNat_setWidth, BitVec.toNat_and]
    have : x.toNat &&& BitVec.toNat (0xff : Limb) = x.toNat % 256 := Nat.and_two_pow_sub_one_eq_mod _ 8
    rw [this]; omega
  simp only [feSerialize, Vector.getElem_ofFn]
  split
  · exact low _
  · rw [low]
    generalize t[j / 2] = x
    have h1 : (wrap64 (asr x 8)).toInt = x.toInt / 256 := by
      have := limb_lower x
      have := limb_upper x
      have e : asr x 8 = x.toInt / 256 := by simp [asr]
      rw [e]; exact wrap64_toInt_of_range (by omega) (by omega)
    have := x.isLt
    have := (wrap64 (asr x 8)).isLt
    rw [BitVec.toInt_eq_toNat_cond, BitVec.toInt_eq_toNat_cond] at h1
    split at h1 <;> split at h1 <;> omega

end Sys2Proof.Machine
end

