-- ==== Sys2Proof/Laws/Decode.lean ====
section
/-! SUPPORT. The fields of a word put together by `cmdWord`, that no two rows of the table overlap, and the mask
tests and the decoder in terms of the word's number. -/

namespace Sys2Proof

/-- Fields within their widths do not disturb each other (R60, R62). -/
theorem cmdWord_toNat {op d a b k : Nat} (ho : op < 16) (hd : d < 8) (ha : a < 8) (hb : b < 8) (hk : k < 2) :
    (cmdWord op d a b k).toNat = op * 4096 + d * 512 + a * 64 + b * 8 + k := by
  simp only [cmdWord, BitVec.toNat_ofNat]; omega

section
variable {op d a b k : Nat} (ho : op < 16) (hd : d < 8) (ha : a < 8) (hb : b < 8) (hk : k < 2)
include ho hd ha hb hk

theorem fieldOp_cmdWord : (fieldOp (cmdWord op d a b k)).toNat = op := by
  simp only [fieldOp, BitVec.extractLsb'_toNat, cmdWord_toNat ho hd ha hb hk, Nat.shiftRight_eq_div_pow]; omega

theorem fieldD_cmdWord : (fieldD (cmdWord op d a b k)).val = d := by
  simp only [fieldD, BitVec.val_toFin, BitVec.extractLsb'_toNat, cmdWord_toNat ho hd ha hb hk,
    Nat.shiftRight_eq_div_pow]; omega

theorem fieldA_cmdWord : (fieldA (cmdWord op d a b k)).val = a := by
  simp only [fieldA, BitVec.val_toFin, BitVec.extractLsb'_toNat, cmdWord_toNat ho hd ha hb hk,
    Nat.shiftRight_eq_div_pow]; omega

theorem fieldB_cmdWord : (fieldB (cmdWord op d a b k)).val = b := by
  simp only [fieldB, BitVec.val_toFin, BitVec.extractLsb'_toNat, cmdWord_toNat ho hd ha hb hk,
    Nat.shiftRight_eq_div_pow]; omega

theorem fieldZ_cmdWord : fieldZ (cmdWord op d a b k) = 0 := by
  apply BitVec.eq_of_toNat_eq
  simp only [fieldZ, BitVec.extractLsb'_toNat, cmdWord_toNat ho hd ha hb hk, Nat.shiftRight_eq_div_pow]
  simp; omega

theorem fieldK_cmdWord : (fieldK (cmdWord op d a b k)).toNat = k := by
  simp only [fieldK, BitVec.extractLsb'_toNat, cmdWord_toNat ho hd ha hb hk, Nat.shiftRight_eq_div_pow]; omega

end

/-- Two rows overlap when some word could match both. -/
def CmdRow.overlaps (r q : CmdRow) : Bool := r.pattern &&& q.mask &&& r.mask == q.pattern &&& r.mask &&& q.mask

/-- "The rows are disjoint (they differ in `op`)" (R64). -/
theorem cmdRows_disjoint : cmdRows.Pairwise fun r q => r.overlaps q = false := by decide

/-! ### Mask tests as facts about numbers -/

/-- A 16-bit mask test on a word of two halves is two 8-bit mask tests. -/
theorem mask_append (h l mh ml ph pl : BitVec 8) :
    (h ++ l) &&& (mh ++ ml) = ph ++ pl ↔ h &&& mh = ph ∧ l &&& ml = pl := by
  rw [BitVec.and_append]
  constructor
  · intro e
    have hi := congrArg (BitVec.extractLsb' 8 8) e
    have lo := congrArg (BitVec.extractLsb' 0 8) e
    rw [BitVec.extractLsb'_append_eq_left, BitVec.extractLsb'_append_eq_left] at hi
    rw [BitVec.extractLsb'_append_eq_right, BitVec.extractLsb'_append_eq_right] at lo
    exact ⟨hi, lo⟩
  · rintro ⟨rfl, rfl⟩; rfl

theorem word_halves (w : CmdWord) :
    ∃ h l : BitVec 8, w = (h ++ l : BitVec (8 + 8)) ∧ w.toNat = h.toNat * 256 + l.toNat := by
  refine ⟨w.extractLsb' 8 8, w.extractLsb' 0 8, ?_, ?_⟩
  · apply BitVec.eq_of_toNat_eq
    rw [BitVec.toNat_append, Nat.shiftLeft_eq, Nat.mul_comm, ← Nat.two_pow_add_eq_or_of_lt (BitVec.isLt _)]
    simp only [BitVec.extractLsb'_toNat, Nat.shiftRight_eq_div_pow]; omega
  · simp only [BitVec.extractLsb'_toNat, Nat.shiftRight_eq_div_pow]; omega

/-- A mask test whose two halves are known tests of numbers. -/
theorem mask_iff {mh ml ph pl : BitVec 8} {P Q : Nat → Prop}
    (hP : ∀ b : BitVec 8, b &&& mh = ph ↔ P b.toNat) (hQ : ∀ b : BitVec 8, b &&& ml = pl ↔ Q b.toNat) (w : CmdWord) :
    w &&& (mh ++ ml : BitVec (8 + 8)) = (ph ++ pl : BitVec (8 + 8)) ↔ P (w.toNat / 256) ∧ Q (w.toNat % 256) := by
  obtain ⟨h, l, rfl, e⟩ := word_halves w
  rw [mask_append, hP, hQ, e, show (h.toNat * 256 + l.toNat) / 256 = h.toNat by omega,
    show (h.toNat * 256 + l.toNat) % 256 = l.toNat by omega]

/-- The rows with two 3-bit fields, opcode `n`: bits 5:0 are 0 (R62). -/
theorem mask_two_fields (n : Fin 16) (w : CmdWord) :
    w &&& 0xF03F = BitVec.ofNat 16 (n.val * 4096) ↔ w.toNat / 4096 = n.val ∧ w.toNat % 64 = 0 := by
  have hP : ∀ (n : Fin 16) (b : BitVec 8), b &&& 0xF0#8 = BitVec.ofNat 8 (n.val * 16) ↔ b.toNat / 16 = n.val := by
    decide +kernel
  have hQ : ∀ b : BitVec 8, b &&& 0x3F#8 = 0#8 ↔ b.toNat % 64 = 0 := by decide +kernel
  have e : ∀ n : Fin 16, BitVec.ofNat 16 (n.val * 4096) = (BitVec.ofNat 8 (n.val * 16) ++ 0#8 : BitVec (8 + 8)) := by
    decide +kernel
  rw [e n, show (0xF03F : CmdWord) = (0xF0#8 ++ 0x3F#8 : BitVec (8 + 8)) from rfl,
    mask_iff (P := (· / 16 = n.val)) (Q := (· % 64 = 0)) (hP n) hQ]
  omega

/-- The rows with three 3-bit fields, opcode `n`: bits 2:0 are 0 (R62). -/
theorem mask_three_fields (n : Fin 16) (w : CmdWord) :
    w &&& 0xF007 = BitVec.ofNat 16 (n.val * 4096) ↔ w.toNat / 4096 = n.val ∧ w.toNat % 8 = 0 := by
  have hP : ∀ (n : Fin 16) (b : BitVec 8), b &&& 0xF0#8 = BitVec.ofNat 8 (n.val * 16) ↔ b.toNat / 16 = n.val := by
    decide +kernel
  have hQ : ∀ b : BitVec 8, b &&& 0x07#8 = 0#8 ↔ b.toNat % 8 = 0 := by decide +kernel
  have e : ∀ n : Fin 16, BitVec.ofNat 16 (n.val * 4096) = (BitVec.ofNat 8 (n.val * 16) ++ 0#8 : BitVec (8 + 8)) := by
    decide +kernel
  rw [e n, show (0xF007 : CmdWord) = (0xF0#8 ++ 0x07#8 : BitVec (8 + 8)) from rfl,
    mask_iff (P := (· / 16 = n.val)) (Q := (· % 8 = 0)) (hP n) hQ]
  omega

/-- The row of SWAP: bits 15:9 are 0x40 and bits 2:1 are 0 (R62). -/
theorem mask_swap (w : CmdWord) :
    w &&& 0xFE06 = 0x8000 ↔ w.toNat / 512 = 64 ∧ w.toNat / 2 % 4 = 0 := by
  have hP : ∀ b : BitVec 8, b &&& 0xFE#8 = 0x80#8 ↔ b.toNat / 2 = 64 := by decide +kernel
  have hQ : ∀ b : BitVec 8, b &&& 0x06#8 = 0#8 ↔ b.toNat / 2 % 4 = 0 := by decide +kernel
  rw [show (0xFE06 : CmdWord) = (0xFE#8 ++ 0x06#8 : BitVec (8 + 8)) from rfl,
    show (0x8000 : CmdWord) = (0x80#8 ++ 0#8 : BitVec (8 + 8)) from rfl,
    mask_iff (P := (· / 2 = 64)) (Q := (· / 2 % 4 = 0)) hP hQ]
  omega

/-- `selects` in terms of the word's number, row by row. -/
theorem selects_iff (w : CmdWord) :
    (CmdRow.selects ⟨.unpack, 0xF03F, 0x1000⟩ w = true ↔ w.toNat / 4096 = 1 ∧ w.toNat % 64 = 0) ∧
    (CmdRow.selects ⟨.pack, 0xF03F, 0x2000⟩ w = true ↔ w.toNat / 4096 = 2 ∧ w.toNat % 64 = 0) ∧
    (CmdRow.selects ⟨.add, 0xF007, 0x3000⟩ w = true ↔ w.toNat / 4096 = 3 ∧ w.toNat % 8 = 0) ∧
    (CmdRow.selects ⟨.sub, 0xF007, 0x4000⟩ w = true ↔ w.toNat / 4096 = 4 ∧ w.toNat % 8 = 0) ∧
    (CmdRow.selects ⟨.mul, 0xF007, 0x5000⟩ w = true ↔ w.toNat / 4096 = 5 ∧ w.toNat % 8 = 0) ∧
    (CmdRow.selects ⟨.carry, 0xF03F, 0x6000⟩ w = true ↔ w.toNat / 4096 = 6 ∧ w.toNat % 64 = 0) ∧
    (CmdRow.selects ⟨.inv, 0xF03F, 0x7000⟩ w = true ↔ w.toNat / 4096 = 7 ∧ w.toNat % 64 = 0) ∧
    (CmdRow.selects ⟨.swap, 0xFE06, 0x8000⟩ w = true ↔ w.toNat / 512 = 64 ∧ w.toNat / 2 % 4 = 0) := by
  simp only [CmdRow.selects, beq_iff_eq]
  exact ⟨mask_two_fields 1 w, mask_two_fields 2 w, mask_three_fields 3 w, mask_three_fields 4 w, mask_three_fields 5 w,
    mask_two_fields 6 w, mask_two_fields 7 w, mask_swap w⟩

/-- `decode` as one chain of tests on the word's number. -/
theorem decode_eq (w : CmdWord) : decode w =
    if w.toNat / 4096 = 1 ∧ w.toNat % 64 = 0 then .command (buildCmd .unpack w)
    else if w.toNat / 4096 = 2 ∧ w.toNat % 64 = 0 then .command (buildCmd .pack w)
    else if w.toNat / 4096 = 3 ∧ w.toNat % 8 = 0 then .command (buildCmd .add w)
    else if w.toNat / 4096 = 4 ∧ w.toNat % 8 = 0 then .command (buildCmd .sub w)
    else if w.toNat / 4096 = 5 ∧ w.toNat % 8 = 0 then .command (buildCmd .mul w)
    else if w.toNat / 4096 = 6 ∧ w.toNat % 64 = 0 then .command (buildCmd .carry w)
    else if w.toNat / 4096 = 7 ∧ w.toNat % 64 = 0 then .command (buildCmd .inv w)
    else if w.toNat / 512 = 64 ∧ w.toNat / 2 % 4 = 0 then .command (buildCmd .swap w)
    else .illegal (illegalReason w) := by
  obtain ⟨h1, h2, h3, h4, h5, h6, h7, h8⟩ := selects_iff w
  have pick : ∀ (r : CmdRow) (l : List CmdRow), (r :: l).find? (fun r => r.selects w) =
      if r.selects w = true then some r else l.find? (fun r => r.selects w) := by
    intro r l; rw [List.find?_cons]; cases r.selects w <;> rfl
  simp only [decode, cmdRows, pick, h1, h2, h3, h4, h5, h6, h7, h8, List.find?_nil]
  split_ifs <;> rfl

end Sys2Proof
end

