-- ==== Sys2Proof/Laws/State.lean ====
section
/-! SUPPORT. One law per field per update of State, so that no proof unfolds a record update. -/

namespace Sys2Proof.Machine

variable (s : State)

/-! ### setReg -/

@[simp] theorem reg_setReg_same (r : EReg) (x : Elem) : (s.setReg r x).reg r = x := by
  simp [State.setReg, State.reg]

theorem reg_setReg_ne {r q : EReg} (h : r ≠ q) (x : Elem) : (s.setReg r x).reg q = s.reg q := by
  have : r.val ≠ q.val := fun e => h (Fin.ext e)
  simp [State.setReg, State.reg, Vector.getElem_set_ne, this]

theorem reg_setReg (r q : EReg) (x : Elem) : (s.setReg r x).reg q = if r = q then x else s.reg q := by
  split
  · subst_vars; simp
  · exact reg_setReg_ne s ‹_› x

@[simp] theorem setReg_pm (r : EReg) (x : Elem) : (s.setReg r x).pm = s.pm := rfl
@[simp] theorem setReg_host (r : EReg) (x : Elem) : (s.setReg r x).host = s.host := rfl
@[simp] theorem setReg_answers (r : EReg) (x : Elem) : (s.setReg r x).answers = s.answers := rfl
@[simp] theorem setReg_resets (r : EReg) (x : Elem) : (s.setReg r x).resets = s.resets := rfl
@[simp] theorem setReg_slot (r : EReg) (x : Elem) (n : Slot) : (s.setReg r x).slot n = s.slot n := rfl

/-! ### setSlot -/

@[simp] theorem setSlot_elements (n : Slot) (v : Packed) : (s.setSlot n v).elements = s.elements := rfl
@[simp] theorem setSlot_reg (n : Slot) (v : Packed) (r : EReg) : (s.setSlot n v).reg r = s.reg r := rfl
@[simp] theorem setSlot_pm (n : Slot) (v : Packed) : (s.setSlot n v).pm = memWrite s.pm (slotAddr n) v := rfl
@[simp] theorem setSlot_host (n : Slot) (v : Packed) : (s.setSlot n v).host = s.host := rfl
@[simp] theorem setSlot_answers (n : Slot) (v : Packed) : (s.setSlot n v).answers = s.answers := rfl
@[simp] theorem setSlot_resets (n : Slot) (v : Packed) : (s.setSlot n v).resets = s.resets := rfl

/-! ### setHost -/

@[simp] theorem setHost_elements (l : List HostTxn) : (s.setHost l).elements = s.elements := rfl
@[simp] theorem setHost_reg (l : List HostTxn) (r : EReg) : (s.setHost l).reg r = s.reg r := rfl
@[simp] theorem setHost_pm (l : List HostTxn) : (s.setHost l).pm = s.pm := rfl
@[simp] theorem setHost_slot (l : List HostTxn) (n : Slot) : (s.setHost l).slot n = s.slot n := rfl
@[simp] theorem setHost_host (l : List HostTxn) : (s.setHost l).host = l := rfl
@[simp] theorem setHost_answers (l : List HostTxn) : (s.setHost l).answers = s.answers := rfl
@[simp] theorem setHost_resets (l : List HostTxn) : (s.setHost l).resets = s.resets := rfl

/-! ### The host's transactions -/

variable (a : Addr) (v : Byte) (c : Option CmdWord)

@[simp] theorem hostWriteByte_elements : (hostWriteByte a v s).elements = s.elements := rfl
@[simp] theorem hostWriteByte_reg (r : EReg) : (hostWriteByte a v s).reg r = s.reg r := rfl
@[simp] theorem hostWriteByte_pm : (hostWriteByte a v s).pm = Memory.write s.pm a v := rfl
@[simp] theorem hostWriteByte_host : (hostWriteByte a v s).host = s.host := rfl
@[simp] theorem hostWriteByte_answers : (hostWriteByte a v s).answers = s.answers := rfl
@[simp] theorem hostWriteByte_resets : (hostWriteByte a v s).resets = s.resets := rfl

@[simp] theorem hostReadByte_elements : (hostReadByte a s).elements = s.elements := rfl
@[simp] theorem hostReadByte_reg (r : EReg) : (hostReadByte a s).reg r = s.reg r := rfl
@[simp] theorem hostReadByte_pm : (hostReadByte a s).pm = s.pm := rfl
@[simp] theorem hostReadByte_host : (hostReadByte a s).host = s.host := rfl
@[simp] theorem hostReadByte_answers : (hostReadByte a s).answers = Memory.read s.pm a :: s.answers := rfl
@[simp] theorem hostReadByte_resets : (hostReadByte a s).resets = s.resets := rfl

@[simp] theorem resetEngine_host : (resetEngine c s).host = s.host := rfl
@[simp] theorem resetEngine_answers : (resetEngine c s).answers = s.answers := rfl
@[simp] theorem resetEngine_resets : (resetEngine c s).resets = s.resets + 1 := rfl

end Sys2Proof.Machine
end

