-- ==== Sys2Proof/Laws/Memory.lean ====
section
/-! SUPPORT. Laws of PM: a read after a write, and the canonical form, for one byte, a slot and a whole memory. -/

namespace Sys2Proof.Machine

/-! ### One byte -/

theorem find_erase_same (m : Memory) (a : Nat) : Memory.find (Memory.erase m a) a = none := by
  induction m with
  | nil => rfl
  | cons c rest ih =>
    obtain ⟨b, v⟩ := c
    by_cases h : b = a <;> simp [Memory.erase, Memory.find, h, ih]

theorem find_erase_ne (m : Memory) {a b : Nat} (h : a ≠ b) : Memory.find (Memory.erase m a) b = Memory.find m b := by
  induction m with
  | nil => rfl
  | cons c rest ih =>
    obtain ⟨x, v⟩ := c
    by_cases hx : x = a
    · subst hx; simp [Memory.erase, Memory.find, h, ih]
    · simp only [Memory.erase, hx, if_false, Memory.find, ih]

theorem find_insert_same {m : Memory} {a : Nat} (v : Byte) (h : Memory.find m a = none) :
    Memory.find (Memory.insert m a v) a = some v := by
  induction m with
  | nil => simp [Memory.insert, Memory.find]
  | cons c rest ih =>
    obtain ⟨b, u⟩ := c
    by_cases hb : b = a
    · simp [Memory.find, hb] at h
    · simp only [Memory.find, hb, if_false] at h
      by_cases hlt : b < a <;> simp [Memory.insert, Memory.find, hlt, hb, ih h]

theorem find_insert_ne (m : Memory) {a b : Nat} (v : Byte) (h : a ≠ b) :
    Memory.find (Memory.insert m a v) b = Memory.find m b := by
  induction m with
  | nil => simp [Memory.insert, Memory.find, h]
  | cons c rest ih =>
    obtain ⟨x, u⟩ := c
    by_cases hlt : x < a <;> simp [Memory.insert, Memory.find, hlt, h, ih]

/-- `HostRead` after `HostWrite` at the same address, in any memory. -/
@[simp] theorem read_write_same (m : Memory) (a : Addr) (v : Byte) : Memory.read (Memory.write m a v) a = v := by
  unfold Memory.read Memory.write
  split
  · simp [find_erase_same, *]
  · simp [find_insert_same v (find_erase_same m a.toNat)]

/-- A write leaves every other address alone. -/
theorem read_write_ne (m : Memory) {a b : Addr} (v : Byte) (h : a ≠ b) :
    Memory.read (Memory.write m a v) b = Memory.read m b := by
  have hn : a.toNat ≠ b.toNat := fun e => h (BitVec.eq_of_toNat_eq e)
  unfold Memory.read Memory.write
  split
  · rw [find_erase_ne m hn]
  · rw [find_insert_ne _ v hn, find_erase_ne m hn]

theorem read_write (m : Memory) (a b : Addr) (v : Byte) :
    Memory.read (Memory.write m a v) b = if a = b then v else Memory.read m b := by
  split
  · subst_vars; simp
  · exact read_write_ne m v ‹_›

/-! ### The canonical form -/

theorem wfFrom_mono {lo lo' : Nat} {m : Memory} (hle : lo' ≤ lo) (h : Memory.wfFrom lo m = true) :
    Memory.wfFrom lo' m = true := by
  cases m with
  | nil => rfl
  | cons c rest =>
    obtain ⟨b, v⟩ := c
    simp only [Memory.wfFrom, Bool.and_eq_true, decide_eq_true_eq] at h ⊢
    exact ⟨⟨⟨by omega, h.1.1.2⟩, h.1.2⟩, h.2⟩

theorem wfFrom_erase {lo : Nat} {m : Memory} (a : Nat) (h : Memory.wfFrom lo m = true) :
    Memory.wfFrom lo (Memory.erase m a) = true := by
  induction m generalizing lo with
  | nil => rfl
  | cons c rest ih =>
    obtain ⟨b, v⟩ := c
    simp only [Memory.wfFrom, Bool.and_eq_true, decide_eq_true_eq] at h
    by_cases hb : b = a
    · simp only [Memory.erase, hb, if_true]
      exact wfFrom_mono (by omega) (ih h.2)
    · simp only [Memory.erase, hb, if_false, Memory.wfFrom, Bool.and_eq_true, decide_eq_true_eq]
      exact ⟨h.1, ih h.2⟩

theorem wfFrom_insert {lo a : Nat} {m : Memory} {v : Byte} (hlo : lo ≤ a) (ha : a < 256) (hv : v ≠ Memory.unlisted)
    (hm : Memory.find m a = none) (h : Memory.wfFrom lo m = true) : Memory.wfFrom lo (Memory.insert m a v) = true := by
  induction m generalizing lo with
  | nil => simp [Memory.insert, Memory.wfFrom, hlo, ha, hv]
  | cons c rest ih =>
    obtain ⟨b, u⟩ := c
    simp only [Memory.wfFrom, Bool.and_eq_true, decide_eq_true_eq] at h
    have hb : b ≠ a := by rintro rfl; simp [Memory.find] at hm
    simp only [Memory.find, hb, if_false] at hm
    by_cases hlt : b < a
    · simp only [Memory.insert, hlt, if_true, Memory.wfFrom, Bool.and_eq_true, decide_eq_true_eq]
      exact ⟨h.1, ih (by omega) hm h.2⟩
    · simp only [Memory.insert, hlt, if_false, Memory.wfFrom, Bool.and_eq_true, decide_eq_true_eq]
      exact ⟨⟨⟨hlo, ha⟩, hv⟩, ⟨⟨by omega, h.1.1.2⟩, h.1.2⟩, h.2⟩

/-- A write of one byte keeps the canonical form. -/
theorem wf_write {m : Memory} (a : Addr) (v : Byte) (h : Memory.wf m = true) :
    Memory.wf (Memory.write m a v) = true := by
  unfold Memory.wf at *
  unfold Memory.write
  split
  · exact wfFrom_erase _ h
  · exact wfFrom_insert (Nat.zero_le _) a.isLt ‹_› (find_erase_same _ _) (wfFrom_erase _ h)

theorem find_none_of_wfFrom {lo a : Nat} {m : Memory} (h : Memory.wfFrom lo m = true) (ha : a < lo) :
    Memory.find m a = none := by
  induction m generalizing lo with
  | nil => rfl
  | cons c rest ih =>
    obtain ⟨b, v⟩ := c
    simp only [Memory.wfFrom, Bool.and_eq_true, decide_eq_true_eq] at h
    have : b ≠ a := by omega
    simp only [Memory.find, this, if_false]
    exact ih h.2 (by omega)

/-- No cell of a canonical memory holds what an unlisted address reads as. -/
theorem find_ne_unlisted {lo a : Nat} {m : Memory} {v : Byte} (h : Memory.wfFrom lo m = true)
    (hf : Memory.find m a = some v) : v ≠ Memory.unlisted := by
  induction m generalizing lo with
  | nil => simp [Memory.find] at hf
  | cons c rest ih =>
    obtain ⟨b, u⟩ := c
    simp only [Memory.wfFrom, Bool.and_eq_true, decide_eq_true_eq] at h
    by_cases hb : b = a
    · simp only [Memory.find, hb, if_true, Option.some.injEq] at hf
      exact hf ▸ h.1.2
    · simp only [Memory.find, hb, if_false] at hf
      exact ih h.2 hf

/-! ### A whole memory from its bytes -/

theorem find_filterMap_range' (f : Nat → Byte) (lo n a : Nat) :
    Memory.find ((List.range' lo n).filterMap fun x =>
      if f x = Memory.unlisted then none else some (x, f x)) a
      = if lo ≤ a ∧ a < lo + n ∧ f a ≠ Memory.unlisted then some (f a) else none := by
  induction n generalizing lo with
  | zero =>
    rw [if_neg (by omega)]; rfl
  | succ n ih =>
    rw [List.range'_succ, List.filterMap_cons]
    by_cases h0 : f lo = Memory.unlisted
    · simp only [h0, if_true, ih]
      by_cases hla : lo = a
      · subst hla; simp [h0]
      · congr 1; simp only [eq_iff_iff]; constructor <;> rintro ⟨h1, h2, h3⟩ <;> exact ⟨by omega, by omega, h3⟩
    · simp only [h0, if_false, Memory.find]
      by_cases hla : lo = a
      · subst hla; simp [h0]
      · simp only [hla, if_false, ih]
        congr 1; simp only [eq_iff_iff]; constructor <;> rintro ⟨h1, h2, h3⟩ <;> exact ⟨by omega, by omega, h3⟩

theorem wfFrom_filterMap_range' (f : Nat → Byte) (lo n : Nat) (h : lo + n ≤ 256) :
    Memory.wfFrom lo ((List.range' lo n).filterMap fun x =>
      if f x = Memory.unlisted then none else some (x, f x)) = true := by
  induction n generalizing lo with
  | zero => rfl
  | succ n ih =>
    rw [List.range'_succ, List.filterMap_cons]
    by_cases h0 : f lo = Memory.unlisted
    · simp only [h0, if_true]
      exact wfFrom_mono (by omega) (ih (lo + 1) (by omega))
    · simp only [h0, if_false, Memory.wfFrom, Bool.and_eq_true, decide_eq_true_eq]
      exact ⟨⟨⟨le_rfl, by omega⟩, h0⟩, ih (lo + 1) (by omega)⟩

/-- Byte `a` of the memory made from `f` is `f a`. -/
@[simp] theorem read_ofBytes (f : Addr → Byte) (a : Addr) : Memory.read (Memory.ofBytes f) a = f a := by
  have h := find_filterMap_range' (fun x => f (BitVec.ofNat 8 x)) 0 256 a.toNat
  have ha := a.isLt
  unfold Memory.read Memory.ofBytes
  rw [List.range_eq_range', h]
  by_cases hu : f a = Memory.unlisted
  · simp [hu]
  · simp [hu, ha]

theorem wf_ofBytes (f : Addr → Byte) : Memory.wf (Memory.ofBytes f) = true := by
  unfold Memory.wf Memory.ofBytes
  rw [List.range_eq_range']
  exact wfFrom_filterMap_range' _ 0 256 le_rfl

/-! ### MemRead, MemWrite and slots -/

@[simp] theorem memRead_getElem (m : Memory) (addr : Addr) (n j : Nat) (h : j < n) :
    (memRead m addr n)[j] = Memory.read m (byteAddr addr j) := by
  simp [memRead]

theorem read_foldl_write {n : Nat} (addr b : Addr) (v : Vector Byte n) (l : List (Fin n)) (m : Memory)
    (h : ∀ j ∈ l, byteAddr addr j.val ≠ b) :
    Memory.read (l.foldl (fun m j => Memory.write m (byteAddr addr j.val) v[j]) m) b = Memory.read m b := by
  induction l generalizing m with
  | nil => rfl
  | cons j l ih =>
    rw [List.foldl_cons, ih _ (fun i hi => h i (List.mem_cons_of_mem _ hi)), read_write_ne m _ (h j List.mem_cons_self)]

/-- A byte outside the addresses written is unchanged. -/
theorem read_memWrite_outside {n : Nat} (m : Memory) (addr b : Addr) (v : Vector Byte n)
    (h : ∀ j, j < n → byteAddr addr j ≠ b) : Memory.read (memWrite m addr v) b = Memory.read m b :=
  read_foldl_write addr b v _ m fun j _ => h j.val j.isLt

theorem read_foldl_write_mem {n : Nat} (hn : n ≤ 256) (addr : Addr) (v : Vector Byte n) (l : List (Fin n))
    (hl : l.Nodup) (m : Memory) {i : Fin n} (hi : i ∈ l) :
    Memory.read (l.foldl (fun m j => Memory.write m (byteAddr addr j.val) v[j]) m) (byteAddr addr i.val) = v[i] := by
  induction l generalizing m with
  | nil => simp at hi
  | cons j l ih =>
    rw [List.foldl_cons]
    rw [List.nodup_cons] at hl
    by_cases hij : i ∈ l
    · exact ih hl.2 _ hij
    · have hj : i = j := by simpa [hij] using hi
      subst hj
      rw [read_foldl_write, read_write_same]
      intro k hk e
      have : k = i := by
        apply Fin.ext
        have h1 := congrArg BitVec.toNat ((BitVec.add_right_inj _).1 e)
        have := k.isLt; have := i.isLt
        simp only [BitVec.toNat_ofNat] at h1
        omega
      exact hij (this ▸ hk)

/-- A byte inside the addresses written is the one stored there. -/
theorem read_memWrite_inside {n : Nat} (hn : n ≤ 256) (m : Memory) (addr : Addr) (v : Vector Byte n) (j : Nat)
    (h : j < n) : Memory.read (memWrite m addr v) (byteAddr addr j) = v[j] :=
  read_foldl_write_mem hn addr v _ (List.nodup_finRange n) m (i := ⟨j, h⟩) (List.mem_finRange _)

theorem wf_memWrite {n : Nat} (m : Memory) (addr : Addr) (v : Vector Byte n) (h : Memory.wf m = true) :
    Memory.wf (memWrite m addr v) = true := by
  unfold memWrite
  generalize List.finRange n = l
  induction l generalizing m with
  | nil => exact h
  | cons j l ih => exact ih _ (wf_write _ _ h)

/-- Byte `j` of slot `n` stands at address `32·n + j`, which never passes 0xFF (R41, R44). -/
theorem slotByte_toNat (n : Slot) {j : Nat} (h : j < 32) : (byteAddr (slotAddr n) j).toNat = 32 * n.val + j := by
  have := n.isLt
  simp only [byteAddr, slotAddr, BitVec.toNat_add, BitVec.toNat_ofNat]
  omega

/-- Distinct slots do not overlap (R41). -/
theorem slotByte_inj {n k : Slot} {j i : Nat} (hj : j < 32) (hi : i < 32)
    (h : byteAddr (slotAddr n) j = byteAddr (slotAddr k) i) : n = k ∧ j = i := by
  have h1 := congrArg BitVec.toNat h
  rw [slotByte_toNat n hj, slotByte_toNat k hi] at h1
  exact ⟨Fin.ext (by omega), by omega⟩

@[simp] theorem slot_getElem (s : State) (n : Slot) (j : Nat) (h : j < 32) :
    (s.slot n)[j] = Memory.read s.pm (byteAddr (slotAddr n) j) := memRead_getElem ..

@[simp] theorem slot_setSlot_same (s : State) (n : Slot) (v : Packed) : (s.setSlot n v).slot n = v := by
  ext j hj : 1
  rw [slot_getElem, setSlot_pm, read_memWrite_inside (by omega) _ _ _ _ hj]

theorem slot_setSlot_ne (s : State) {n k : Slot} (h : n ≠ k) (v : Packed) : (s.setSlot n v).slot k = s.slot k := by
  ext j hj : 1
  rw [slot_getElem, slot_getElem, setSlot_pm, read_memWrite_outside]
  intro i hi e
  exact h (slotByte_inj hi hj e).1

end Sys2Proof.Machine
end

