-- ==== Sys2Proof/Laws/Mul.lean ====
section
/-! SUPPORT. The product before its carry passes, in closed form: every entry is the wrapped sum of its limb products. -/

namespace Sys2Proof.Machine

@[simp] theorem ints_getElem (x : Elem) (i : Nat) (h : i < 16) : (ints x)[i] = x[i].toInt := by simp [ints]

/-- The term that the products `a[i]·b[j]` add to entry `k`, for natural-number indices. -/
def productTerm (a b : Elem) (k i j : Nat) : Int :=
  if h : i < 16 ∧ j < 16 then (if i + j = k then a[i].toInt * b[j].toInt else 0) else 0

theorem productTerm_of_lt (a b : Elem) (k : Nat) {i j : Nat} (hi : i < 16) (hj : j < 16) :
    productTerm a b k i j = if i + j = k then a[i].toInt * b[j].toInt else 0 := by simp [productTerm, hi, hj]

theorem productRow_getElem (a b : Elem) (i : Fin 16) (p : Vector Limb 32) (k : Nat) (hk : k < 32) :
    ((List.finRange 16).foldl (fun p j => productStep a b p i j) p)[k]
      = wrap64 (p[k].toInt + ∑ j ∈ Finset.range 16, productTerm a b k i j) := by
  have key := foldl_finRange_inv (fun p j => productStep a b p i j)
    (fun n q => ∀ k (hk : k < 32), q[k] = wrap64 (p[k].toInt + ∑ j ∈ Finset.range n, productTerm a b k i j)) (b := p)
    (by intro k hk; simp)
    (by
      intro j hj q ih k hk
      rw [Finset.sum_range_succ, productTerm_of_lt a b k i.isLt hj]
      by_cases h : i.val + j = k
      · subst h
        simp only [productStep, Vector.getElem_set_self, ih, if_true, wrap64_wrap_add, Fin.getElem_fin]
        congr 1; ring
      · simp only [productStep]
        rw [Vector.getElem_set_ne _ _ h, ih k hk]
        simp [h])
  exact key k hk

/-- The convolution: entry `k` is the wrapped sum of the products with `i + j = k` (R110). -/
theorem convolve_getElem (a b : Elem) (k : Nat) (hk : k < 32) :
    (convolve a b)[k] = wrap64 (convolveZ (ints a) (ints b) k) := by
  have key := foldl_finRange_inv
    (fun product i => (List.finRange 16).foldl (fun product j => productStep a b product i j) product)
    (fun n q => ∀ k (hk : k < 32),
      q[k] = wrap64 (∑ i ∈ Finset.range n, ∑ j ∈ Finset.range 16, productTerm a b k i j))
    (b := Vector.replicate 32 0)
    (by intro k hk; simp [wrap64])
    (by
      intro i hi q ih k hk
      rw [productRow_getElem, ih, wrap64_wrap_add, Finset.sum_range_succ _ i])
  rw [convolve, key k hk]
  congr 1
  unfold convolveZ
  rw [← Fin.sum_univ_eq_sum_range (fun i => ∑ j ∈ Finset.range 16, productTerm a b k i j) 16]
  refine Finset.sum_congr rfl fun i _ => ?_
  rw [← Fin.sum_univ_eq_sum_range (fun j => productTerm a b k i j) 16]
  refine Finset.sum_congr rfl fun j _ => ?_
  rw [productTerm_of_lt a b k i.isLt j.isLt]
  simp

/-- The fold-back, entry by entry; entries from 15 on are unchanged (R110, R112). -/
theorem foldBack_getElem (p : Vector Limb 32) (k : Nat) (hk : k < 32) :
    (foldBack p)[k]
      = if h : k < 15 then wrap64 (p[k].toInt + 38 * p[k + 16].toInt) else p[k] := by
  have key := foldl_finRange_inv foldStep
    (fun n q => ∀ k (hk : k < 32),
      q[k] = if h : k < n ∧ k < 15 then wrap64 (p[k].toInt + 38 * p[k + 16].toInt) else p[k])
    (b := p) (by intro k hk; simp)
    (by
      intro i hi q ih k hk
      by_cases h : i = k
      · subst h
        simp only [foldStep, Vector.getElem_set_self]
        rw [ih i hk, ih (i + 16) (by omega)]
        simp [hi]
      · simp only [foldStep]
        rw [Vector.getElem_set_ne _ _ h, ih k hk]
        have : (k < i + 1 ∧ k < 15) = (k < i ∧ k < 15) := by simp only [eq_iff_iff]; omega
        simp only [this])
  rw [foldBack, key k hk]
  by_cases h : k < 15 <;> simp [h]

@[simp] theorem truncate_getElem (p : Vector Limb 32) (k : Nat) (hk : k < 16) : (truncate p)[k] = p[k] := by
  simp [truncate]

theorem foldZ_getElem (f : Nat → Int) (k : Nat) (hk : k < 16) :
    (foldZ f)[k] = if k < 15 then f k + 38 * f (k + 16) else f k := by simp [foldZ]

/-- The one lemma about the product: what the two carry passes of `feMul` are applied to (R110). -/
theorem mulLow_getElem (a b : Elem) (k : Nat) (hk : k < 16) :
    (truncate (foldBack (convolve a b)))[k] = wrap64 (foldZ (convolveZ (ints a) (ints b)))[k] := by
  rw [truncate_getElem, foldBack_getElem _ _ (by omega), foldZ_getElem]
  split
  · rw [convolve_getElem, convolve_getElem, wrap64_wrap_add]
    apply wrap64_congr
    have h := wrap64_emod (convolveZ (ints a) (ints b) (k + 16))
    omega
  · rw [convolve_getElem]

end Sys2Proof.Machine
end

