-- ==== Sys2Proof/Laws/PerInstr.lean ====
section
/-! SUPPORT. Statements about every command as syntax, one lemma per constructor. -/

namespace Sys2Proof.Laws.EncodeMatchesRow

/-- The word of the command is selected by its own row of R62, and the command is well formed. -/
def Statement (i : Instr) : Prop :=
  i.wellFormed = true ∧ (cmdRows.any fun r => decide (r.op = i.opcode) && r.selects (encode i)) = true

theorem unpack (d : EReg) (a : Slot) : Statement (.unpack d a) := by
  unfold Statement; revert d a; decide +kernel

theorem pack (d : Slot) (a : EReg) : Statement (.pack d a) := by
  unfold Statement; revert d a; decide +kernel

theorem add (d a b : EReg) : Statement (.add d a b) := by
  unfold Statement; revert d a b; decide +kernel

theorem sub (d a b : EReg) : Statement (.sub d a b) := by
  unfold Statement; revert d a b; decide +kernel

theorem mul (d a b : EReg) : Statement (.mul d a b) := by
  unfold Statement; revert d a b; decide +kernel

theorem carry (d a : EReg) : Statement (.carry d a) := by
  unfold Statement; revert d a; decide +kernel

theorem inv (d a : EReg) : Statement (.inv d a) := by
  unfold Statement; revert d a; decide +kernel

theorem swap (a b : EReg) (k : BitVec 1) : Statement (.swap a b k) := by
  unfold Statement; revert a b k; decide +kernel

end Sys2Proof.Laws.EncodeMatchesRow
end

