-- ==== Sys2Proof/Laws/Prime.lean ====
section
/-! SUPPORT. The modulus is prime (spec/00_scope.md R3, "the single fixed prime"): a chain of Lucas certificates, each power
computed by repeated squaring on natural numbers. -/

namespace Sys2Proof.Laws

/-- `acc · b^e mod m` by repeated squaring, for exponents below `2^fuel`. -/
def powMod (m : Nat) : Nat → Nat → Nat → Nat → Nat
  | 0, _, _, acc => acc % m
  | fuel + 1, b, e, acc => powMod m fuel (b * b % m) (e / 2) (if e % 2 = 1 then acc * b % m else acc)

theorem powMod_eq (m fuel : Nat) : ∀ b e acc, e < 2 ^ fuel → powMod m fuel b e acc = acc * b ^ e % m := by
  induction fuel with
  | zero =>
    intro b e acc h
    have : e = 0 := by simpa using h
    subst this; simp [powMod]
  | succ fuel ih =>
    intro b e acc h
    rw [powMod, ih _ _ _ (by rw [pow_succ] at h; omega)]
    have hb : (b * b % m) ^ (e / 2) ≡ b ^ (2 * (e / 2)) [MOD m] := by
      rw [pow_mul, pow_two]; exact (Nat.mod_modEq _ _).pow _
    rcases Nat.mod_two_eq_zero_or_one e with he | he
    · have e2 : 2 * (e / 2) = e := by omega
      rw [e2] at hb
      simp only [he, zero_ne_one, if_false]
      exact hb.mul_left acc
    · have e2 : e = 2 * (e / 2) + 1 := by omega
      simp only [he, if_true]
      have : acc * b ^ e = acc * b * b ^ (2 * (e / 2)) := by
        conv_lhs => rw [e2, pow_succ]
        ring
      rw [this]
      exact (Nat.mod_modEq _ _).mul hb

/-- Lucas' criterion with all its powers computed: `qs` holds every prime factor of `n - 1`. -/
theorem prime_of_certificate {n : Nat} (a : Nat) (qs : List (Nat × Nat)) (hn : 1 < n ∧ n < 2 ^ 256)
    (hfac : (qs.map fun q => q.1 ^ q.2).prod = n - 1) (hqs : ∀ q ∈ qs, q.1.Prime)
    (hone : powMod n 256 a (n - 1) 1 = 1) (hne : ∀ q ∈ qs, powMod n 256 a ((n - 1) / q.1) 1 ≠ 1) : n.Prime := by
  have cast : ∀ e, e < 2 ^ 256 → (((a : Nat) : ZMod n) ^ e = 1 ↔ powMod n 256 a e 1 = 1) := by
    intro e he
    rw [powMod_eq n 256 a e 1 he, one_mul]
    have : ((a : Nat) : ZMod n) ^ e = ((a ^ e : Nat) : ZMod n) := by push_cast; rfl
    rw [this, ← Nat.cast_one, ZMod.natCast_eq_natCast_iff, Nat.ModEq, Nat.mod_eq_of_lt hn.1]
  refine lucas_primality n (a : ZMod n) ((cast _ (by omega)).2 hone) fun q hq hdvd => ?_
  rw [← hfac] at hdvd
  obtain ⟨x, hx, hqx⟩ := (Nat.Prime.prime hq).dvd_prod_iff.1 hdvd
  obtain ⟨r, hr, rfl⟩ := List.mem_map.1 hx
  have : q = r.1 := (Nat.prime_dvd_prime_iff_eq hq (hqs r hr)).1 (hq.dvd_of_dvd_pow hqx)
  subst this
  intro h
  exact hne r hr ((cast _ (lt_of_le_of_lt (Nat.div_le_self _ _) (by omega))).1 h)

theorem prime_72106336199 : Nat.Prime 72106336199 := by
  refine prime_of_certificate 7 [(2, 1), (13, 1), (2773320623, 1)] (by norm_num) (by norm_num) ?_ (by decide +kernel)
    (by decide +kernel)
  have : Nat.Prime 2773320623 := by
    refine prime_of_certificate 5 [(2, 1), (2437, 1), (569003, 1)] (by norm_num) (by norm_num) ?_ (by decide +kernel)
      (by decide +kernel)
    simp only [List.mem_cons, List.not_mem_nil, or_false, forall_eq_or_imp, forall_eq]; norm_num
  simp only [List.mem_cons, List.not_mem_nil, or_false, forall_eq_or_imp, forall_eq]
  exact ⟨by norm_num, by norm_num, this⟩

theorem prime_1919519569386763 : Nat.Prime 1919519569386763 := by
  refine prime_of_certificate 2 [(2, 1), (3, 1), (7, 1), (19, 1), (47, 2), (127, 1), (8574133, 1)] (by norm_num)
    (by norm_num) ?_ (by decide +kernel) (by decide +kernel)
  simp only [List.mem_cons, List.not_mem_nil, or_false, forall_eq_or_imp, forall_eq]; norm_num

theorem prime_31757755568855353 : Nat.Prime 31757755568855353 := by
  refine prime_of_certificate 10 [(2, 3), (3, 1), (31, 1), (107, 1), (223, 1), (4153, 1), (430751, 1)] (by norm_num)
    (by norm_num) ?_ (by decide +kernel) (by decide +kernel)
  simp only [List.mem_cons, List.not_mem_nil, or_false, forall_eq_or_imp, forall_eq]; norm_num

theorem prime_75445702479781427272750846543864801 : Nat.Prime 75445702479781427272750846543864801 := by
  refine prime_of_certificate 7 [(2, 5), (3, 2), (5, 2), (75707, 1), (72106336199, 1), (1919519569386763, 1)]
    (by norm_num) (by norm_num) ?_ (by decide +kernel) (by decide +kernel)
  simp only [List.mem_cons, List.not_mem_nil, or_false, forall_eq_or_imp, forall_eq]
  exact ⟨by norm_num, by norm_num, by norm_num, by norm_num, prime_72106336199, prime_1919519569386763⟩

theorem prime_factor_of_p_minus_one :
    Nat.Prime 74058212732561358302231226437062788676166966415465897661863160754340907 := by
  refine prime_of_certificate 2 [(2, 1), (3, 1), (353, 1), (57467, 1), (132049, 1), (1923133, 1),
    (31757755568855353, 1), (75445702479781427272750846543864801, 1)]
    (by norm_num) (by norm_num) ?_ (by decide +kernel) (by decide +kernel)
  simp only [List.mem_cons, List.not_mem_nil, or_false, forall_eq_or_imp, forall_eq]
  exact ⟨by norm_num, by norm_num, by norm_num, by norm_num, by norm_num, by norm_num, prime_31757755568855353,
    prime_75445702479781427272750846543864801⟩

/-- `p = 2^255 - 19` is prime (R3). -/
theorem p_prime : Nat.Prime Config.p := by
  unfold Config.p
  refine prime_of_certificate 2 [(2, 2), (3, 1), (65147, 1),
    (74058212732561358302231226437062788676166966415465897661863160754340907, 1)]
    (by norm_num) (by norm_num) ?_ (by decide +kernel) (by decide +kernel)
  simp only [List.mem_cons, List.not_mem_nil, or_false, forall_eq_or_imp, forall_eq]
  exact ⟨by norm_num, by norm_num, by norm_num, prime_factor_of_p_minus_one⟩

end Sys2Proof.Laws
end

