-- ==== Sys2Proof/Laws/Step.lean ====
section
/-! SUPPORT. What a command, a transaction and a step can do, each said once. -/

namespace Sys2Proof.Machine

/-! ### The commands -/

section
variable (s : State)

@[simp] theorem exec_unpack (d : EReg) (a : Slot) :
    exec (.unpack d a) s = .next (s.setReg d (feUnpack (s.slot a))) := rfl
@[simp] theorem exec_pack (d : Slot) (a : EReg) : exec (.pack d a) s = .next (s.setSlot d (fePack (s.reg a))) := rfl
@[simp] theorem exec_add (d a b : EReg) : exec (.add d a b) s = .next (s.setReg d (feAdd (s.reg a) (s.reg b))) := rfl
@[simp] theorem exec_sub (d a b : EReg) : exec (.sub d a b) s = .next (s.setReg d (feSub (s.reg a) (s.reg b))) := rfl
@[simp] theorem exec_mul (d a b : EReg) : exec (.mul d a b) s = .next (s.setReg d (feMul (s.reg a) (s.reg b))) := rfl
@[simp] theorem exec_carry (d a : EReg) : exec (.carry d a) s = .next (s.setReg d (feCarry (s.reg a))) := rfl
@[simp] theorem exec_inv (d a : EReg) : exec (.inv d a) s = .next (s.setReg d (feInv (s.reg a))) := rfl
@[simp] theorem exec_swap (a b : EReg) (k : BitVec 1) :
    exec (.swap a b k) s = .next ((s.setReg a (feSwap (s.reg a) (s.reg b) k).1).setReg b
      (feSwap (s.reg a) (s.reg b) k).2) := rfl

end

/-- The shapes of a command's effect: one register, one slot, or two registers written. -/
theorem exec_shape {i : Instr} {s t : State} (h : exec i s = .next t) :
    (∃ d x, t = s.setReg d x ∧ cmdWrites i = [.reg d]) ∨
    (∃ d v, t = s.setSlot d v ∧ cmdWrites i = slotLocs d) ∨
    (∃ a b x y, t = (s.setReg a x).setReg b y ∧ cmdWrites i = [.reg a, .reg b]) := by
  cases i <;> cases h
  case pack => exact .inr (.inl ⟨_, _, rfl, rfl⟩)
  case swap => exact .inr (.inr ⟨_, _, _, _, rfl, rfl⟩)
  all_goals exact .inl ⟨_, _, rfl, rfl⟩

theorem mem_slotLocs {n : Slot} {l : Loc} : l ∈ slotLocs n ↔ ∃ j, j < 32 ∧ l = .byte (byteAddr (slotAddr n) j) := by
  simp only [slotLocs, List.mem_map, List.mem_range]
  constructor
  · rintro ⟨j, hj, rfl⟩; exact ⟨j, hj, rfl⟩
  · rintro ⟨j, hj, rfl⟩; exact ⟨j, hj, rfl⟩

/-! ### Steps -/

theorem step_of_nil {s : State} (h : s.host = []) : step s = idleStep s := by simp only [step, h]

theorem step_of_cons {s : State} {x : HostTxn} {rest : List HostTxn} (h : s.host = x :: rest) :
    step s = hostStep x (s.setHost rest) := by simp only [step, h]

/-- Everything a step can do when it answers a next state. -/
theorem step_cases {s t : State} (h : step s = .next t) :
    (s.host = [] ∧ t = s) ∨
    ∃ x rest, s.host = x :: rest ∧
      ((∃ w i, x = .issue w ∧ decode w = .command i ∧ exec i (s.setHost rest) = .next t) ∨
       (∃ w why, x = .issue w ∧ decode w = .illegal why ∧ t = s.setHost rest) ∨
       (∃ a v, x = .hostWrite a v ∧ t = hostWriteByte a v (s.setHost rest)) ∨
       (∃ a, x = .hostRead a ∧ t = hostReadByte a (s.setHost rest)) ∨
       (x = .reset ∧ t = resetEngine none (s.setHost rest)) ∨
       (∃ w, x = .resetDuring w ∧ t = resetEngine (some w) (s.setHost rest))) := by
  match hs : s.host with
  | [] =>
    rw [step_of_nil hs] at h
    cases h
    exact .inl ⟨rfl, rfl⟩
  | x :: rest =>
    rw [step_of_cons hs] at h
    refine .inr ⟨x, rest, rfl, ?_⟩
    cases x with
    | issue w =>
      simp only [hostStep, issueWord] at h
      match hd : decode w with
      | .command i => rw [hd] at h; exact .inl ⟨w, i, rfl, hd, h⟩
      | .illegal why => rw [hd] at h; cases h; exact .inr (.inl ⟨w, why, rfl, hd, rfl⟩)
    | hostWrite a v => cases h; exact .inr (.inr (.inl ⟨a, v, rfl, rfl⟩))
    | hostRead a => cases h; exact .inr (.inr (.inr (.inl ⟨a, rfl, rfl⟩)))
    | reset => cases h; exact .inr (.inr (.inr (.inr (.inl ⟨rfl, rfl⟩))))
    | resetDuring w => cases h; exact .inr (.inr (.inr (.inr (.inr ⟨w, rfl, rfl⟩))))

theorem resetEngine_pm (c : Option CmdWord) (s : State) :
    (resetEngine c s).pm = Memory.ofBytes fun a => Config.resetByte s.resets c s.elements s.pm a := rfl

theorem resetEngine_reg (c : Option CmdWord) (s : State) (r : EReg) (i : Nat) (h : i < 16) :
    ((resetEngine c s).reg r)[i] = Config.resetLimb s.resets c s.elements s.pm r ⟨i, h⟩ := by
  simp [resetEngine, State.reg]

end Sys2Proof.Machine
end

