-- ==== Sys2Proof/Laws/Unbounded.lean ====
section
/-! SUPPORT. The unbounded-integer carry pass, limb by limb, and the pure functions as their unbounded descriptions wrapped. -/

namespace Sys2Proof.Machine

/-- The carry into limb `i` on unbounded integers. -/
def carryInZ (x : Vector Int 16) : Nat → Int
  | 0 => 0
  | i + 1 => if h : i < 16 then (x[i] + carryInZ x i) / 65536 else 0

@[simp] theorem carryInZ_zero (x : Vector Int 16) : carryInZ x 0 = 0 := rfl

theorem carryInZ_succ (x : Vector Int 16) {i : Nat} (h : i < 16) :
    carryInZ x (i + 1) = (x[i] + carryInZ x i) / 65536 := by simp only [carryInZ, h, dif_pos]

/-- The state of an unbounded pass before step `n`. -/
structure CarryAtZ (x : Vector Int 16) (n : Nat) (o : Vector Int 16) : Prop where
  below : ∀ i (h : i < 16), i < n → o[i] = (x[i] + carryInZ x i) % 65536
  at_n : ∀ h : n < 16, o[n] = x[n] + carryInZ x n
  above : ∀ i (h : i < 16), n < i → o[i] = x[i]

theorem carryAtZ_step {x o : Vector Int 16} {n : Nat} (hn : n < 15) (ho : CarryAtZ x n o) :
    CarryAtZ x (n + 1) (carryStepZ o ⟨n, by omega⟩) := by
  have hat := ho.at_n (by omega)
  have hc : o[n] / 2 ^ 16 = carryInZ x (n + 1) := by rw [hat, carryInZ_succ _ (by omega)]; norm_num
  constructor
  · intro i h hi
    simp only [carryStepZ, hn, dif_pos, Fin.getElem_fin]
    by_cases hin : i = n
    · subst hin
      rw [Vector.getElem_set_ne _ _ (by omega), Vector.getElem_set_self, hat]
      norm_num; omega
    · rw [Vector.getElem_set_ne _ _ (by omega), Vector.getElem_set_ne _ _ (by omega)]
      exact ho.below i h (by omega)
  · intro h
    simp only [carryStepZ, hn, dif_pos, Fin.getElem_fin, Vector.getElem_set_self]
    rw [Vector.getElem_set_ne _ _ (by omega), ho.above _ h (by omega), hc]
  · intro i h hi
    simp only [carryStepZ, hn, dif_pos, Fin.getElem_fin]
    rw [Vector.getElem_set_ne _ _ (by omega), Vector.getElem_set_ne _ _ (by omega)]
    exact ho.above i h (by omega)

/-- An unbounded carry pass, limb by limb. -/
theorem carryZ_getElem (x : Vector Int 16) (i : Nat) (h : i < 16) :
    (carryZ x)[i] = (x[i] + carryInZ x i) % 65536 + if i = 0 then 38 * carryInZ x 16 else 0 := by
  have key := foldl_finRange_inv carryStepZ
    (fun n o => (n ≤ 15 → CarryAtZ x n o) ∧ (n = 16 → ∀ i (h : i < 16),
      o[i] = (x[i] + carryInZ x i) % 65536 + if i = 0 then 38 * carryInZ x 16 else 0)) (b := x)
    ⟨fun _ => ⟨fun _ _ hi => absurd hi (by omega), fun _ => by simp, fun _ _ _ => rfl⟩, fun h => absurd h (by omega)⟩
    (by
      rintro n hn o ⟨ho, -⟩
      by_cases h15 : n < 15
      · exact ⟨fun _ => carryAtZ_step h15 (ho (by omega)), fun h => absurd h (by omega)⟩
      · have : n = 15 := by omega
        subst this
        refine ⟨fun h => absurd h (by omega), fun _ i h => ?_⟩
        have ho := ho le_rfl
        have hat := ho.at_n (by omega)
        have hc : o[15] / 2 ^ 16 = carryInZ x 16 := by rw [hat, carryInZ_succ _ (i := 15) (by omega)]; norm_num
        simp only [carryStepZ, Fin.getElem_fin, lt_irrefl, dif_neg, not_false_eq_true]
        by_cases hi0 : i = 0
        · subst hi0
          rw [Vector.getElem_set_self, Vector.getElem_set_ne _ _ (by omega), ho.below 0 (by omega) (by omega), hc, if_pos rfl]
        · rw [Vector.getElem_set_ne _ _ (by omega), if_neg hi0, Int.add_zero]
          by_cases hi15 : i = 15
          · subst hi15
            rw [Vector.getElem_set_self, hc]
            have := carryInZ_succ x (i := 15) (by omega)
            omega
          · rw [Vector.getElem_set_ne _ _ (by omega)]
            exact ho.below i h (by omega))
  exact key.2 rfl i h

/-- While no limb of a pass leaves `i64`, its carries are the unbounded ones (R12, R123). -/
theorem carryIn_eq_carryInZ (x : Elem)
    (h : ∀ i (hi : i < 16), -2 ^ 63 ≤ x[i].toInt + carryInZ (ints x) i ∧ x[i].toInt + carryInZ (ints x) i < 2 ^ 63) :
    ∀ i, i ≤ 16 → carryIn x i = carryInZ (ints x) i := by
  intro i
  induction i with
  | zero => intro _; rfl
  | succ i ih =>
    intro hi
    have := h i (by omega)
    rw [carryInZ_succ _ (by omega), ints_getElem, ← ih (by omega)]
    rw [← ih (by omega)] at this
    exact carryIn_succ_of_exact x (by omega) this.1 this.2

/-- While no limb of a pass leaves `i64`, the pass is the unbounded one (R12, R123). -/
theorem ints_feCarry (x : Elem)
    (h : ∀ i (hi : i < 16), -2 ^ 63 ≤ x[i].toInt + carryInZ (ints x) i ∧ x[i].toInt + carryInZ (ints x) i < 2 ^ 63) :
    ints (feCarry x) = carryZ (ints x) := by
  have hc := carryIn_eq_carryInZ x h
  ext i hi
  rw [ints_getElem, carryZ_getElem]
  by_cases h0 : i = 0
  · subst h0
    simp [feCarry_limb0, hc 16 le_rfl]
  · simp [feCarry_limb x hi h0, hc i (by omega), h0]

/-- A wrapped vector holds the integers that fit. -/
theorem ints_of_wrap (o : Elem) (z : Vector Int 16) (ho : ∀ i (h : i < 16), o[i] = wrap64 z[i])
    (hz : ∀ i (h : i < 16), (-2 ^ 63 : Int) ≤ z[i] ∧ z[i] < 2 ^ 63) : ints o = z := by
  ext i h
  rw [ints_getElem, ho i h, wrap64_toInt_of_range (hz i h).1 (hz i h).2]

end Sys2Proof.Machine
end

