-- ==== Sys2Proof/Tests/Slice0.lean ====
section
/-! SUPPORT. The model's own tests: expected results from the tables and examples of spec/ (95_test_vectors.md T, V and P numbers),
and a witness for every statement that has hypotheses. -/

namespace Sys2Proof.Tests
open Sys2Proof.Machine

/-- A limb vector from its first limbs; the others are 0. -/
def limbs (l : List Int) : Elem := Vector.ofFn fun i => BitVec.ofInt 64 (l.getD i.val 0)

/-- Limb 0, fourteen equal limbs, limb 15: the notation `[x, y ×14, z]` of the spec. -/
def limbs3 (x y z : Int) : Elem := Vector.ofFn fun i => BitVec.ofInt 64 (if i.val = 0 then x else if i.val = 15 then z else y)

/-- The state after reset with `x` in one register. -/
def withReg (r : EReg) (x : Elem) : State := State.reset.setReg r x

/-- The state after reset with `host` as the stream. -/
def withHost (host : List HostTxn) : State := State.reset.setHost host

/-- A view of the next state, if there is one. -/
def after {α : Type} (o : Host.Outcome State Fault Refusal) (f : State → α) : Option α :=
  match o with
  | .next t => some (f t)
  | _ => none

/-! ### Well-formedness: an ill-formed term for each check -/

theorem test_unpack_names_missing_register : (Instr.unpack 4 0).wellFormedFor 4 8 = false := by decide
theorem test_unpack_names_missing_slot : (Instr.unpack 0 4).wellFormedFor 8 4 = false := by decide
theorem test_pack_names_missing_slot : (Instr.pack 4 0).wellFormedFor 8 4 = false := by decide
theorem test_pack_names_missing_register : (Instr.pack 0 4).wellFormedFor 4 8 = false := by decide
theorem test_add_names_missing_destination : (Instr.add 4 0 0).wellFormedFor 4 8 = false := by decide
theorem test_sub_names_missing_minuend : (Instr.sub 0 4 0).wellFormedFor 4 8 = false := by decide
theorem test_mul_names_missing_source : (Instr.mul 0 0 4).wellFormedFor 4 8 = false := by decide
theorem test_carry_names_missing_source : (Instr.carry 0 4).wellFormedFor 4 8 = false := by decide
theorem test_inv_names_missing_destination : (Instr.inv 4 0).wellFormedFor 4 8 = false := by decide
theorem test_swap_names_missing_register : (Instr.swap 0 4 1).wellFormedFor 4 8 = false := by decide

/-! ### Words written out bit by bit from the patterns of R62 -/

theorem test_decode_unpack : decode 0b0001_101_010_000000#16 = .command (.unpack 5 2) := by decide
theorem test_decode_pack : decode 0b0010_110_001_000000#16 = .command (.pack 6 1) := by decide
theorem test_decode_add : decode 0b0011_001_010_011_000#16 = .command (.add 1 2 3) := by decide
theorem test_decode_sub : decode 0b0100_111_100_010_000#16 = .command (.sub 7 4 2) := by decide
theorem test_decode_mul : decode 0b0101_011_101_110_000#16 = .command (.mul 3 5 6) := by decide
theorem test_decode_carry : decode 0b0110_100_111_000000#16 = .command (.carry 4 7) := by decide
theorem test_decode_inv : decode 0b0111_010_001_000000#16 = .command (.inv 2 1) := by decide
theorem test_decode_swap : decode 0b1000000_110_011_00_1#16 = .command (.swap 6 3 1) := by decide
/-- V60 to V63: the nearest illegal words. -/
theorem test_decode_illegal : (decode 0x3409 = .illegal .nonzeroK ∧ decode 0x1008 = .illegal .nonzeroB) ∧
    (decode 0x8209 = .illegal .nonzeroD ∧ decode 0x3404 = .illegal .nonzeroZ) := by decide
/-- UNPACK and PACK with k = 1 are illegal too (R64). -/
theorem test_decode_illegal_k : decode 0x1001 = .illegal .nonzeroK ∧ decode 0x2001 = .illegal .nonzeroK := by decide
theorem test_decode_table_word : decodeTableWord 16 0x80d9 = some (.swap 3 3 1) ∧ decodeTableWord 16 0x9000 = none := by
  decide
/-- R66's examples. -/
theorem test_asm : asm (.unpack 0 0) = "UNPACK E0, P0" ∧ asm (.pack 1 1) = "PACK P1, E1" ∧
    asm (.sub 2 2 1) = "SUB E2, E2, E1" ∧ asm (.swap 0 1 1) = "SWAP E0, E1, 1" := by decide

/-! ### Commands -/

/-- V1 at one limb each end, through PM: bytes 0, 1 and 30, 31 of slot 7. -/
theorem test_unpack_little_endian :
    after (exec (.unpack 1 7) { State.reset with pm := [(224, 0x05), (225, 0x01), (254, 0x1e), (255, 0x1f)] })
      (fun t => ((t.reg 1)[0], (t.reg 1)[15])) = some (0x0105, 0x1f1e) := by decide +kernel
/-- V3: the only set bit, bit 7 of byte 31, is dropped. -/
theorem test_unpack_drops_top_bit :
    after (exec (.unpack 0 0) { State.reset with pm := [(31, 0x80)] }) (fun t => t.reg 0) = some (limbs []) := by
  decide +kernel
/-- V10: -1 packs to p - 1; the lowest, a middle and the highest byte of slot 2. -/
theorem test_pack_minus_one :
    after (exec (.pack 2 0) (withReg 0 (limbs [-1])))
      (fun t => ((t.slot 2)[0], (t.slot 2)[17], (t.slot 2)[31])) = some (0xec, 0xff, 0x7f) := by decide +kernel
/-- V9: 2^256 - 1 needs both rounds and packs to 37. -/
theorem test_pack_two_rounds :
    after (exec (.pack 0 3) (withReg 3 (limbs3 0xffff 0xffff 0xffff))) (fun t => t.pm) = some [(0, 37)] := by decide +kernel
/-- V17: no carry between limbs; V20: wrap. -/
theorem test_add_no_carry :
    after (exec (.add 2 0 0) (withReg 0 (limbs [0xffff]))) (fun t => t.reg 2) = some (limbs [0x1fffe]) := by decide +kernel
theorem test_add_wraps :
    after (exec (.add 2 0 1) ((withReg 0 (limbs [0x7fffffffffffffff])).setReg 1 (limbs [1])))
      (fun t => (t.reg 2)[0].toInt) = some (-0x8000000000000000) := by decide +kernel
/-- V19: 3 - 5; the minuend is the first source. -/
theorem test_sub_order :
    after (exec (.sub 2 0 1) ((withReg 0 (limbs [3])).setReg 1 (limbs [5]))) (fun t => t.reg 2) = some (limbs [-2]) := by
  decide +kernel
/-- V21: wrap. -/
theorem test_sub_wraps :
    after (exec (.sub 0 0 1) ((withReg 0 (limbs [-0x8000000000000000])).setReg 1 (limbs [1])))
      (fun t => (t.reg 0)[0].toInt) = some 0x7fffffffffffffff := by decide +kernel
/-- V24: limb 15 squared folds with 38 into limb 14. -/
theorem test_mul_folds :
    after (exec (.mul 1 0 0) (withReg 0 (limbs3 0 0 1))) (fun t => t.reg 1)
      = some (limbs [0, 0, 0, 0, 0, 0, 0, 0, 0, 0, 0, 0, 0, 0, 0x26]) := by decide +kernel
/-- V26: the largest settled limbs squared. -/
theorem test_mul_full :
    after (exec (.mul 0 0 0) (withReg 0 (limbs3 0xffff 0xffff 0xffff))) (fun t => t.reg 0) = some (limbs [0x559]) := by
  decide +kernel
/-- V36: the mixed case. -/
theorem test_carry_mixed :
    after (exec (.carry 3 2) (withReg 2 (limbs [0x12345678, -0x12345, 0xffff, 0x10000, 0, 0, 0, 0, 0, 0, 0, 0, 0, 0, 0,
      0x7ffff]))) (fun t => t.reg 3)
      = some (limbs [0x5782, 0xeeef, 0xfffd, 0, 1, 0, 0, 0, 0, 0, 0, 0, 0, 0, 0, 0xffff]) := by decide +kernel
/-- V37: limb 1 wraps to -2^63. -/
theorem test_carry_wraps :
    after (exec (.carry 0 0) (withReg 0 (limbs [0x10000, 0x7fffffffffffffff]))) (fun t => t.reg 0)
      = some (limbs [-0x26, 0, 0, 0, 0x8000, 0xffff, 0xffff, 0xffff, 0xffff, 0xffff, 0xffff, 0xffff, 0xffff, 0xffff,
        0xffff, 0xffff]) := by decide +kernel
/-- T11: the exponent that the chain builds is p - 2. -/
theorem test_inv_exponent :
    invChain.foldl (fun e op => match op with | .square => 2 * e | .multiply => e + 1) 1 = Config.p - 2 := by
  decide +kernel
/-- V39: 1 is its own inverse, limb for limb. -/
theorem test_inv_one : after (exec (.inv 1 0) (withReg 0 (limbs [1]))) (fun t => t.reg 1) = some (limbs [1]) := by
  have one : feMul (limbs [1]) (limbs [1]) = limbs [1] := by decide +kernel
  have chain : ∀ l : List ChainOp, l.foldl (chainStep (limbs [1])) (limbs [1]) = limbs [1] := by
    intro l
    induction l with
    | nil => rfl
    | cons op l ih => cases op <;> simp only [List.foldl_cons, chainStep, one, ih]
  simp [after, withReg, feInv, chain]
/-- V45: negative and extreme limbs are exchanged bit for bit. -/
theorem test_swap_exchanges :
    after (exec (.swap 0 1 1) ((withReg 0 (limbs [1, -2, 0x7fffffffffffffff])).setReg 1 (limbs [5, 6, -1])))
      (fun t => (t.reg 0, t.reg 1)) = some (limbs [5, 6, -1], limbs [1, -2, 0x7fffffffffffffff]) := by decide +kernel
/-- V47: SWAP E3, E3, 1 leaves the register unchanged. -/
theorem test_swap_alias :
    after (exec (.swap 3 3 1) (withReg 3 (limbs [9, -9]))) (fun t => t.reg 3) = some (limbs [9, -9]) := by decide +kernel

/-! ### Steps -/

/-- P2, step 1, and P4, step 5: an issued word runs, an illegal one changes nothing but the stream. -/
theorem test_step_issue :
    after (step ((withReg 0 (limbs [0xffff])).withFetchWord 16 0x3400)) (fun t => (t.reg 2, t.host))
      = some (limbs [0x1fffe], []) := by decide +kernel
theorem test_step_illegal : step (State.reset.withFetchWord 16 0x3409) = .next State.reset := rfl
/-- R45: the last byte of PM, written and read back. -/
theorem test_host_write_read :
    after (Host.Core.run Sys2Proof.core 2 (withHost [.hostWrite 0xFF 0x80, .hostRead 0xFF])) (fun t => (t.pm, t.answers))
      = some ([(255, 0x80)], [0x80]) := by decide +kernel
/-- Writing what an unlisted byte reads as removes the cell. -/
theorem test_write_zero_unlists : Memory.write [(3, 1), (7, 2)] 7 0 = [(3, 1)] := by decide

/-! ### Witnesses: the hypotheses of every statement that has some can be met -/

theorem witness_DecodeOfEncode : (Instr.swap 7 7 1).wellFormed = true := by decide

theorem witness_WordsSelect : decode 0x80d9 = .command (.swap 3 3 1) := by decide

theorem witness_IllegalWords : decode 0x3409 = .illegal .nonzeroK := by decide

theorem witness_StepRuns_legal :
    (withHost [.issue 0x7FC0]).host = .issue 0x7FC0 :: [] ∧ decode 0x7FC0 = .command (.inv 7 7) := by decide
theorem witness_StepRuns_illegal :
    (withHost [.issue 0x0000]).host = .issue 0x0000 :: [] ∧ decode 0x0000 = .illegal .reservedOpcode := by decide

theorem witness_HostWrite : (withHost [.hostWrite 0xFF 1]).host = .hostWrite 0xFF 1 :: [] := rfl
theorem witness_HostRead : (withHost [.hostRead 0x00]).host = .hostRead 0x00 :: [] := rfl

theorem witness_EngineIdles : State.reset.host = [] := rfl

theorem witness_Reset : (withHost [.reset]).host = .reset :: [] := rfl
theorem witness_ResetDuring : (withHost [.resetDuring 0x7200]).host = .resetDuring 0x7200 :: [] := rfl

/-- PACK to slot 2 and a write just below lie between a write to the first byte of slot 1 and the read of it. -/
theorem witness_HostReadReturns :
    (withHost [.hostWrite 0x20 7, .issue 0x2400, .hostWrite 0x1F 9, .hostRead 0x20]).host
      = .hostWrite 0x20 7 :: ([.issue 0x2400, .hostWrite 0x1F 9] ++ .hostRead 0x20 :: []) ∧
    ∀ x ∈ [HostTxn.issue 0x2400, .hostWrite 0x1F 9], x.mayWrite (.byte 0x20) = false := by decide

theorem witness_StepKeepsMemory :
    Inv (withHost [.hostWrite 0xFF 1]) ∧ ∃ t, step (withHost [.hostWrite 0xFF 1]) = .next t := ⟨by decide, _, rfl⟩

theorem witness_CanonicalMemories :
    Memory.wf [(0, 1), (255, 2)] = true ∧ ∀ a, Memory.read [(0, 1), (255, 2)] a = Memory.read [(0, 1), (255, 2)] a :=
  ⟨by decide, fun _ => rfl⟩

theorem witness_BytesChange_hostWrite :
    after (step (withHost [.hostWrite 0x20 1])) (fun t => decide (Memory.read t.pm 0x20 ≠ Memory.read State.reset.pm 0x20))
      = some true := by decide +kernel
theorem witness_BytesChange_pack :
    after (step ((withReg 0 (limbs [1])).withFetchWord 16 0x2200)) (fun t => Memory.read t.pm 0x20) = some 1 ∧
      Memory.read ((withReg 0 (limbs [1])).withFetchWord 16 0x2200).pm 0x20 = 0 := by decide +kernel

theorem witness_RegistersChange :
    after (step ((withReg 0 (limbs [1])).withFetchWord 16 0x3E00)) (fun t => t.reg 7) = some (limbs [2]) ∧
      ((withReg 0 (limbs [1])).withFetchWord 16 0x3E00).reg 7 = limbs [] := by decide +kernel

theorem witness_CommandsDepend :
    (∀ l ∈ cmdReads (.carry 1 0), SameAt (withReg 2 (limbs [1])) (withReg 2 (limbs [5])) l) ∧
    (∃ t, exec (.carry 1 0) (withReg 2 (limbs [1])) = .next t) ∧
    ∃ t, exec (.carry 1 0) (withReg 2 (limbs [5])) = .next t := by
  refine ⟨?_, ⟨_, rfl⟩, ⟨_, rfl⟩⟩
  simp [cmdReads, SameAt, withReg, reg_setReg_ne]

theorem witness_LimbsReachTheHost :
    (withReg 0 (limbs [1])).pm = (withReg 0 (limbs [5])).pm ∧
    SameHostSide ((withReg 0 (limbs [1])).withFetchWord 16 0x3400) ((withReg 0 (limbs [5])).withFetchWord 16 0x3400) ∧
    decode 0x3400 = .command (.add 2 0 0) := ⟨rfl, ⟨rfl, rfl, rfl⟩, by decide⟩

theorem witness_TimeAndAccesses : (Instr.mul 0 1 2).opcode = (Instr.mul 7 7 7).opcode := rfl

theorem witness_frames :
    (∃ t, exec (.unpack 7 7) State.reset = .next t) ∧ (∃ t, exec (.add 7 7 7) State.reset = .next t) ∧
    (∃ t, exec (.sub 7 0 0) State.reset = .next t) ∧ (∃ t, exec (.mul 0 7 7) State.reset = .next t) ∧
    (∃ t, exec (.carry 0 7) State.reset = .next t) ∧ (∃ t, exec (.inv 7 0) State.reset = .next t) ∧
    (∃ t, exec (.pack 7 0) State.reset = .next t) ∧ (∃ t, exec (.swap 0 0 1) State.reset = .next t) ∧
    ∃ t, exec (.swap 0 7 0) State.reset = .next t :=
  ⟨⟨_, rfl⟩, ⟨_, rfl⟩, ⟨_, rfl⟩, ⟨_, rfl⟩, ⟨_, rfl⟩, ⟨_, rfl⟩, ⟨_, rfl⟩, ⟨_, rfl⟩, ⟨_, rfl⟩⟩

/-- At the edges of the range: 2^63 - 1 and -2^63. -/
theorem witness_AddExact : ∀ i : Fin 16,
    -2 ^ 63 ≤ (limbs [2 ^ 63 - 2, -2 ^ 63 + 1])[i].toInt + (limbs [1, -1])[i].toInt ∧
    (limbs [2 ^ 63 - 2, -2 ^ 63 + 1])[i].toInt + (limbs [1, -1])[i].toInt < 2 ^ 63 := by decide +kernel
theorem witness_SubExact : ∀ i : Fin 16,
    -2 ^ 63 ≤ (limbs [2 ^ 63 - 2, -2 ^ 63 + 1])[i].toInt - (limbs [-1, 1])[i].toInt ∧
    (limbs [2 ^ 63 - 2, -2 ^ 63 + 1])[i].toInt - (limbs [-1, 1])[i].toInt < 2 ^ 63 := by decide +kernel
theorem witness_AddSub_magnitudes : ∀ i : Fin 16,
    (limbs [2, -2])[i].toInt.natAbs ≤ 2 ∧ (limbs [1, -1])[i].toInt.natAbs ≤ 1 := by decide +kernel

theorem witness_SubUndoesAdd :
    (2 : EReg) ≠ 1 ∧ ∃ t, exec (.add 2 0 1) State.reset = .next t ∧ ∃ u, exec (.sub 2 2 1) t = .next u :=
  ⟨by decide, _, rfl, _, rfl⟩

/-- V31: every limb 2^26, the bound of R113 and R133. -/
theorem witness_MulBound : 571 * limbMax (limbs3 (2 ^ 26) (2 ^ 26) (2 ^ 26)) * limbMax (limbs3 (2 ^ 26) (2 ^ 26) (2 ^ 26))
    ≤ 2 ^ 62 := by decide +kernel
theorem witness_MulZero : ∀ i : Fin 16, (limbs [])[i] = 0 := by decide +kernel

theorem witness_Settled : Settled (limbs3 0xffff 0 0xffff) := by decide +kernel
theorem witness_CarryExact : ∀ i : Fin 16,
    -2 ^ 63 ≤ (limbs3 (2 ^ 62) (-2 ^ 62) (2 ^ 62))[i].toInt + carryIn (limbs3 (2 ^ 62) (-2 ^ 62) (2 ^ 62)) i.val ∧
    (limbs3 (2 ^ 62) (-2 ^ 62) (2 ^ 62))[i].toInt + carryIn (limbs3 (2 ^ 62) (-2 ^ 62) (2 ^ 62)) i.val < 2 ^ 63 := by
  decide +kernel
theorem witness_PassesBound : limbMax (limbs3 (2 ^ 62) (-2 ^ 62) (-2 ^ 62)) ≤ 2 ^ 62 := by decide +kernel

theorem witness_InvBound : limbMax (limbs3 (2 ^ 26) (-2 ^ 26) (-2 ^ 26)) ≤ 2 ^ 26 := by decide +kernel
theorem witness_InvNonzero : limbMax (limbs [2]) ≤ 2 ^ 26 ∧ fe (limbs [2]) ≠ 0 := by decide +kernel
/-- The limbs of p, which represent 0 (V33). -/
theorem witness_InvZero :
    limbMax (limbs3 0xffed 0xffff 0x7fff) ≤ 2 ^ 26 ∧ fe (limbs3 0xffed 0xffff 0x7fff) = 0 := by decide +kernel

theorem witness_TimesInverse_nonzero : packedInt (packedOf 2) % 2 ^ 255 % Config.p ≠ 0 := by decide +kernel
theorem witness_TimesInverse_zero : packedInt (packedOf Config.p) % 2 ^ 255 % Config.p = 0 := by decide +kernel

theorem witness_PackAfterUnpack_canonical : packedInt (packedOf (Config.p - 1)) < Config.p := by decide +kernel
theorem witness_PackAfterUnpack_noncanonical :
    (Config.p ≤ packedInt (packedOf Config.p) ∧ packedInt (packedOf Config.p) < 2 ^ 255) ∧
    (Config.p ≤ packedInt (packedOf (2 ^ 255 - 1)) ∧ packedInt (packedOf (2 ^ 255 - 1)) < 2 ^ 255) := by decide +kernel
theorem witness_PackAfterUnpack_topBit : 128 ≤ (packedOf (2 ^ 255))[31].toNat := by decide +kernel

theorem witness_Round : borrowBit (candidate (limbs [0]))[15] = 1 ∧
    borrowBit (candidate (limbs3 0xffff 0xffff 0xffff))[15] = 0 := by decide +kernel

theorem witness_SwapTwice : ∃ t, exec (.swap 0 7 1) State.reset = .next t := ⟨_, rfl⟩

theorem inBounds_add : InBounds (.add 2 0 1) ((withReg 0 (limbs [2 ^ 62, -2 ^ 62])).setReg 1 (limbs [2 ^ 62 - 1])) := by
  unfold InBounds; decide +kernel
theorem inBounds_sub : InBounds (.sub 2 0 1) ((withReg 0 (limbs [2 ^ 62, -2 ^ 62])).setReg 1 (limbs [2 ^ 62 - 1])) := by
  unfold InBounds; decide +kernel
theorem inBounds_mul : InBounds (.mul 1 0 0) (withReg 0 (limbs3 (2 ^ 26) (2 ^ 26) (2 ^ 26))) := by
  unfold InBounds; decide +kernel
theorem inBounds_carry : InBounds (.carry 1 0) (withReg 0 (limbs3 (2 ^ 62) (-2 ^ 62) (2 ^ 62))) := by
  unfold InBounds; decide +kernel
theorem inBounds_inv : InBounds (.inv 1 0) (withReg 0 (limbs3 (2 ^ 26) (-2 ^ 26) (2 ^ 26))) := by
  unfold InBounds; decide +kernel
theorem inBounds_pack : InBounds (.pack 1 0) (withReg 0 (limbs3 (2 ^ 62) (-2 ^ 62) (2 ^ 62))) := by
  unfold InBounds; decide +kernel
theorem inBounds_unpack_swap : InBounds (.unpack 0 0) State.reset ∧ InBounds (.swap 0 1 1) State.reset :=
  ⟨trivial, trivial⟩

/-- A vector that is not zero limbs but whose value is 0 squares to zero limbs: zero limbs out of INV do not need zero limbs
in (log entry 12). -/
theorem test_zero_limbs_from_nonzero :
    val (limbs [65536, -1]) = 0 ∧ feMul (limbs [65536, -1]) (limbs [65536, -1]) = limbs [] := by decide +kernel

end Sys2Proof.Tests
end

/-! ## Proofs of spec/00_scope.md: what a command reads and writes, and the idle engine -/

namespace Sys2Proof.Machine

/-! ### Two states that hold the same at a place -/

theorem SameAt.trans {s t u : State} {l : Loc} (h : SameAt s t l) (h' : SameAt t u l) : SameAt s u l := by
  cases l with
  | reg r => exact Eq.trans h h'
  | byte a => exact Eq.trans h h'

/-- Slots that agree at each of their 32 bytes are equal. -/
theorem slot_eq_of_sameAt {s t : State} {n : Slot} (h : ∀ l ∈ slotLocs n, SameAt s t l) : s.slot n = t.slot n := by
  ext j hj : 1
  rw [slot_getElem, slot_getElem]
  exact h _ (mem_slotLocs.2 ⟨j, hj, rfl⟩)

/-! ### The writes of one register and of one slot: the frame, and writing alike in two states -/

theorem sameAt_setReg_of_ne (s : State) {d : EReg} {l : Loc} (h : l ≠ .reg d) (x : Elem) :
    SameAt s (s.setReg d x) l := by
  cases l with
  | reg r => exact (reg_setReg_ne s (fun e => h (congrArg Loc.reg e.symm)) x).symm
  | byte a => rfl

theorem sameAt_setReg_setReg {s t : State} {d : EReg} {l : Loc} (h : l ≠ .reg d → SameAt s t l) (x : Elem) :
    SameAt (s.setReg d x) (t.setReg d x) l := by
  cases l with
  | reg r =>
    by_cases hr : r = d
    · subst hr
      simp only [SameAt, reg_setReg_same]
    · simpa only [SameAt, reg_setReg_ne _ (Ne.symm hr)] using h (fun e => hr (Loc.reg.inj e))
  | byte a => exact h Loc.noConfusion

theorem sameAt_setSlot_of_not_mem (s : State) {d : Slot} {l : Loc} (h : l ∉ slotLocs d) (v : Packed) :
    SameAt s (s.setSlot d v) l := by
  cases l with
  | reg r => rfl
  | byte a =>
    have outside : ∀ j, j < 32 → byteAddr (slotAddr d) j ≠ a := fun j hj e => h (mem_slotLocs.2 ⟨j, hj, by rw [e]⟩)
    exact (read_memWrite_outside s.pm (slotAddr d) a v outside).symm

theorem sameAt_setSlot_setSlot (s t : State) {d : Slot} {l : Loc} (h : l ∈ slotLocs d) (v : Packed) :
    SameAt (s.setSlot d v) (t.setSlot d v) l := by
  obtain ⟨j, hj, rfl⟩ := mem_slotLocs.1 h
  simp only [SameAt, setSlot_pm, read_memWrite_inside (by decide : 32 ≤ 256) _ _ _ _ hj]

/-! ### The commands -/

/-- `exec_shape` for two states that agree at the sources: the command stores the same values in both. -/
theorem exec_shape_of_sameAt_reads {i : Instr} {s₁ s₂ t₁ t₂ : State} (hr : ∀ l ∈ cmdReads i, SameAt s₁ s₂ l)
    (h₁ : exec i s₁ = .next t₁) (h₂ : exec i s₂ = .next t₂) :
    (∃ d x, t₁ = s₁.setReg d x ∧ t₂ = s₂.setReg d x ∧ cmdWrites i = [.reg d]) ∨
    (∃ d v, t₁ = s₁.setSlot d v ∧ t₂ = s₂.setSlot d v ∧ cmdWrites i = slotLocs d) ∨
    (∃ a b x y, t₁ = (s₁.setReg a x).setReg b y ∧ t₂ = (s₂.setReg a x).setReg b y ∧
      cmdWrites i = [.reg a, .reg b]) := by
  cases i <;> cases h₁ <;> cases h₂
  case unpack => exact .inl ⟨_, _, rfl, by rw [slot_eq_of_sameAt hr], rfl⟩
  all_goals
    simp only [cmdReads, SameAt, List.forall_mem_cons, List.not_mem_nil, false_implies, implies_true, and_true] at hr
  case pack => exact .inr (.inl ⟨_, _, rfl, by rw [hr], rfl⟩)
  case swap => exact .inr (.inr ⟨_, _, _, _, rfl, by rw [hr.1, hr.2], rfl⟩)
  case carry | inv => exact .inl ⟨_, _, rfl, by rw [hr], rfl⟩
  case add | sub | mul => exact .inl ⟨_, _, rfl, by rw [hr.1, hr.2], rfl⟩

/-- A command reads only its sources (R8). -/
theorem exec_sameAt_writes {i : Instr} {s₁ s₂ t₁ t₂ : State} (hr : ∀ l ∈ cmdReads i, SameAt s₁ s₂ l)
    (h₁ : exec i s₁ = .next t₁) (h₂ : exec i s₂ = .next t₂) {l : Loc} (hl : l ∈ cmdWrites i) : SameAt t₁ t₂ l := by
  obtain ⟨d, x, rfl, rfl, hw⟩ | ⟨d, v, rfl, rfl, hw⟩ | ⟨a, b, x, y, rfl, rfl, hw⟩ :=
    exec_shape_of_sameAt_reads hr h₁ h₂
  · rw [hw, List.mem_singleton] at hl
    exact sameAt_setReg_setReg (fun hd => absurd hl hd) x
  · exact sameAt_setSlot_setSlot s₁ s₂ (hw ▸ hl) v
  · rw [hw, List.mem_pair] at hl
    exact sameAt_setReg_setReg (fun hb => sameAt_setReg_setReg (fun ha => (hl.elim ha hb).elim) x) y

/-- A command writes only its destinations (R8). -/
theorem exec_sameAt_of_not_mem_writes {i : Instr} {s t : State} (h : exec i s = .next t) {l : Loc}
    (hl : l ∉ cmdWrites i) : SameAt s t l := by
  obtain ⟨d, x, rfl, hw⟩ | ⟨d, v, rfl, hw⟩ | ⟨a, b, x, y, rfl, hw⟩ := exec_shape h
  · rw [hw, List.mem_singleton] at hl
    exact sameAt_setReg_of_ne s hl x
  · exact sameAt_setSlot_of_not_mem s (hw ▸ hl) v
  · rw [hw, List.mem_pair, not_or] at hl
    obtain ⟨ha, hb⟩ := hl
    exact (sameAt_setReg_of_ne s ha x).trans (sameAt_setReg_of_ne _ hb y)

/-- No command touches the host's side (log entries 3 to 5). -/
theorem exec_sameHostSide {i : Instr} {s t : State} (h : exec i s = .next t) : SameHostSide s t := by
  obtain ⟨d, x, rfl, -⟩ | ⟨d, v, rfl, -⟩ | ⟨a, b, x, y, rfl, -⟩ := exec_shape h
  · exact ⟨rfl, rfl, rfl⟩
  · exact ⟨rfl, rfl, rfl⟩
  · exact ⟨rfl, rfl, rfl⟩

/-- Settles O18: the dependence from the values the command stores, the frame from the shape of its effect. -/
theorem commandsDependOnlyOnTheirSources : Obligations.CommandsDependOnlyOnTheirSources :=
  ⟨fun _ _ _ _ _ hr h₁ h₂ _ hl => exec_sameAt_writes hr h₁ h₂ hl,
    fun _ _ _ h => ⟨fun _ hl => exec_sameAt_of_not_mem_writes h hl, exec_sameHostSide h⟩⟩

/-- Settles O8: with an empty stream the step is the idle step, which answers the state itself. -/
theorem engineIdlesWithoutTransactions : Obligations.EngineIdlesWithoutTransactions := by
  intro s h
  rw [step_of_nil h, idleStep]

end Sys2Proof.Machine

/-! ## Proofs of spec/10_state.md: completion, what a step changes, the canonical form of PM, and frames -/

namespace Sys2Proof.Machine

/-! ### Completion -/

/-- Settles O11: each of the eight commands has an effect in every state. -/
theorem everyCommandCompletes : Obligations.EveryCommandCompletes := by
  intro i s
  cases i with
  | unpack d a => exact ⟨_, exec_unpack s d a⟩
  | pack d a => exact ⟨_, exec_pack s d a⟩
  | add d a b => exact ⟨_, exec_add s d a b⟩
  | sub d a b => exact ⟨_, exec_sub s d a b⟩
  | mul d a b => exact ⟨_, exec_mul s d a b⟩
  | carry d a => exact ⟨_, exec_carry s d a⟩
  | inv d a => exact ⟨_, exec_inv s d a⟩
  | swap a b k => exact ⟨_, exec_swap s a b k⟩

/-! ### The canonical form of PM -/

/-- A command writes PM through one slot, if at all. -/
theorem exec_keeps_inv {i : Instr} {s t : State} (hs : Inv s) (h : exec i s = .next t) : Inv t := by
  obtain ⟨d, x, rfl, -⟩ | ⟨d, v, rfl, -⟩ | ⟨a, b, x, y, rfl, -⟩ := exec_shape h
  · exact hs
  · exact wf_memWrite s.pm (slotAddr d) v hs
  · exact hs

theorem resetEngine_inv (c : Option CmdWord) (s : State) : Inv (resetEngine c s) := by
  rw [Inv, resetEngine_pm]
  exact wf_ofBytes _

/-- Settles O13: PM is written by a command, byte by byte by the host, or as a whole by Reset. -/
theorem stepKeepsMemoryCanonical : Obligations.StepKeepsMemoryCanonical := by
  intro s t hs h
  obtain ⟨-, rfl⟩ | ⟨x, rest, -, hx⟩ := step_cases h
  · exact hs
  have hs' : Inv (s.setHost rest) := hs
  obtain ⟨w, i, -, -, he⟩ | ⟨w, why, -, -, rfl⟩ | ⟨a, v, -, rfl⟩ | ⟨a, -, rfl⟩ | ⟨-, rfl⟩ | ⟨w, -, rfl⟩ := hx
  · exact exec_keeps_inv hs' he
  · exact hs'
  · exact wf_write a v hs'
  · exact hs'
  · exact resetEngine_inv none _
  · exact resetEngine_inv (some w) _

/-- Settles O14: the memory after reset lists no cell. -/
theorem resetStateIsCanonical : Obligations.ResetStateIsCanonical := ⟨rfl, rfl, rfl⟩

/-! ### The destinations of a command -/

theorem byte_mem_slotLocs {n : Slot} {a : Addr} :
    .byte a ∈ slotLocs n ↔ 32 * n.val ≤ a.toNat ∧ a.toNat < 32 * n.val + 32 := by
  rw [mem_slotLocs]
  constructor
  · rintro ⟨j, hj, e⟩
    rw [Loc.byte.inj e, slotByte_toNat n hj]
    omega
  · rintro ⟨lo, hi⟩
    have hj : a.toNat - 32 * n.val < 32 := by omega
    refine ⟨_, hj, congrArg Loc.byte (BitVec.eq_of_toNat_eq ?_)⟩
    rw [slotByte_toNat n hj]
    omega

/-- Only PACK has bytes of PM as destinations (R46). -/
theorem byte_mem_cmdWrites {i : Instr} {a : Addr} (h : .byte a ∈ cmdWrites i) :
    ∃ d r, i = .pack d r ∧ .byte a ∈ slotLocs d := by
  cases i with
  | pack d r => exact ⟨d, r, rfl, h⟩
  | _ => simp [cmdWrites] at h

/-- The commands that have `E[r]` as a destination (R22). -/
theorem reg_mem_cmdWrites {i : Instr} {r : EReg} (h : .reg r ∈ cmdWrites i) :
    (∃ a, i = .unpack r a) ∨ (∃ a b, i = .add r a b) ∨ (∃ a b, i = .sub r a b) ∨ (∃ a b, i = .mul r a b) ∨
      (∃ a, i = .carry r a) ∨ (∃ a, i = .inv r a) ∨ (∃ b k, i = .swap r b k) ∨ (∃ a k, i = .swap a r k) := by
  cases i with
  | pack d a => simp [cmdWrites, mem_slotLocs] at h
  | _ => simpa [cmdWrites, eq_comm] using h

/-! ### What a step changes -/

theorem SameAt.refl (s : State) (l : Loc) : SameAt s s l := by
  cases l with
  | reg r => rfl
  | byte a => rfl

theorem SameAt.symm {s t : State} {l : Loc} (h : SameAt s t l) : SameAt t s l := by
  cases l with
  | reg r => exact Eq.symm h
  | byte a => exact Eq.symm h

theorem sameAt_setHost (s : State) (rest : List HostTxn) (l : Loc) : SameAt s (s.setHost rest) l := by
  cases l with
  | reg r => rfl
  | byte a => rfl

theorem sameAt_hostReadByte (a : Addr) (s : State) (l : Loc) : SameAt s (hostReadByte a s) l := by
  cases l with
  | reg r => rfl
  | byte b => rfl

theorem sameAt_hostWriteByte_of_ne {a : Addr} {l : Loc} (h : l ≠ .byte a) (v : Byte) (s : State) :
    SameAt s (hostWriteByte a v s) l := by
  cases l with
  | reg r => rfl
  | byte b => exact (read_write_ne s.pm v (fun e => h (congrArg Loc.byte e.symm))).symm

/-- A place whose content a step changes was written by the transaction performed: it is a destination of the command
issued, the byte of a HostWrite, or the transaction is a Reset (R8, R45, R170). -/
theorem step_writes_of_not_sameAt {s t : State} {l : Loc} (h : step s = .next t) (hl : ¬ SameAt s t l) :
    ∃ x rest, s.host = x :: rest ∧
      ((∃ w i, x = .issue w ∧ decode w = .command i ∧ l ∈ cmdWrites i) ∨
       (∃ a v, x = .hostWrite a v ∧ l = .byte a) ∨
       x = .reset ∨ ∃ w, x = .resetDuring w) := by
  obtain ⟨-, rfl⟩ | ⟨x, rest, hs, hx⟩ := step_cases h
  · exact absurd (SameAt.refl t l) hl
  have hl' : ¬ SameAt (s.setHost rest) t l := fun e => hl ((sameAt_setHost s rest l).trans e)
  refine ⟨x, rest, hs, ?_⟩
  obtain ⟨w, i, rfl, hd, he⟩ | ⟨w, why, -, -, rfl⟩ | ⟨a, v, rfl, rfl⟩ | ⟨a, -, rfl⟩ | ⟨rfl, -⟩ | ⟨w, rfl, -⟩ := hx
  · have hw : l ∈ cmdWrites i := by_contra fun hw => hl' (exec_sameAt_of_not_mem_writes he hw)
    exact .inl ⟨w, i, rfl, hd, hw⟩
  · exact absurd (SameAt.refl _ l) hl'
  · have ha : l = .byte a := by_contra fun ha => hl' (sameAt_hostWriteByte_of_ne ha v _)
    exact .inr (.inl ⟨a, v, rfl, ha⟩)
  · exact absurd (sameAt_hostReadByte a _ l) hl'
  · exact .inr (.inr (.inl rfl))
  · exact .inr (.inr (.inr ⟨w, rfl⟩))

/-- Settles O16: of the commands only PACK has bytes as destinations, those of its slot. -/
theorem bytesChangeOnlyByTheirWriters : Obligations.BytesChangeOnlyByTheirWriters := by
  intro s t a h hne
  obtain ⟨x, rest, hs, hx⟩ := step_writes_of_not_sameAt (l := .byte a) h (Ne.symm hne)
  refine ⟨x, rest, hs, ?_⟩
  obtain ⟨w, i, rfl, hd, hw⟩ | ⟨b, v, rfl, hb⟩ | hreset := hx
  · obtain ⟨d, r, rfl, ha⟩ := byte_mem_cmdWrites hw
    exact .inr (.inl ⟨w, d, r, rfl, hd, byte_mem_slotLocs.1 ha⟩)
  · cases hb
    exact .inl ⟨v, rfl⟩
  · exact .inr (.inr hreset)

/-- Settles O17: no host transaction but Reset writes a register, and a command only its destinations. -/
theorem registersChangeOnlyByTheirCommands : Obligations.RegistersChangeOnlyByTheirCommands := by
  intro s t r h hne
  obtain ⟨x, rest, hs, hx⟩ := step_writes_of_not_sameAt (l := .reg r) h (Ne.symm hne)
  refine ⟨x, rest, hs, ?_⟩
  obtain ⟨w, i, rfl, hd, hw⟩ | ⟨b, v, -, hb⟩ | hreset := hx
  · exact .inl ⟨w, i, rfl, hd, reg_mem_cmdWrites hw⟩
  · exact absurd hb Loc.noConfusion
  · exact .inr hreset

/-! ### What the host can see -/

theorem issueWord_of_command {w : CmdWord} {i : Instr} (h : decode w = .command i) (s : State) :
    issueWord w s = exec i s := by
  rw [issueWord, h]

theorem issueWord_of_illegal {w : CmdWord} {why : IllegalWord} (h : decode w = .illegal why) (s : State) :
    issueWord w s = .next s := by
  rw [issueWord, h]

/-- The two states show the host the same: PM and the model's own fields. -/
def HostView (s t : State) : Prop := s.pm = t.pm ∧ SameHostSide s t

theorem HostView.symm {s t : State} (h : HostView s t) : HostView t s := by
  obtain ⟨hpm, hhost, hans, hres⟩ := h
  exact ⟨hpm.symm, hhost.symm, hans.symm, hres.symm⟩

theorem HostView.trans {s t u : State} (h : HostView s t) (h' : HostView t u) : HostView s u := by
  obtain ⟨hpm, hhost, hans, hres⟩ := h
  obtain ⟨hpm', hhost', hans', hres'⟩ := h'
  exact ⟨hpm.trans hpm', hhost.trans hhost', hans.trans hans', hres.trans hres'⟩

theorem HostView.setHost {s t : State} (h : HostView s t) (rest : List HostTxn) :
    HostView (s.setHost rest) (t.setHost rest) := by
  obtain ⟨hpm, -, hans, hres⟩ := h
  exact ⟨hpm, rfl, hans, hres⟩

theorem HostView.hostWriteByte {s t : State} (h : HostView s t) (a : Addr) (v : Byte) :
    HostView (hostWriteByte a v s) (hostWriteByte a v t) := by
  obtain ⟨hpm, hside⟩ := h
  exact ⟨congrArg (Memory.write · a v) hpm, hside⟩

theorem HostView.hostReadByte {s t : State} (h : HostView s t) (a : Addr) :
    HostView (hostReadByte a s) (hostReadByte a t) := by
  obtain ⟨hpm, hhost, hans, hres⟩ := h
  exact ⟨hpm, hhost, by rw [hostReadByte_answers, hostReadByte_answers, hpm, hans], hres⟩

/-- A command other than PACK shows the host nothing new. -/
theorem exec_hostView {i : Instr} {s t : State} (hi : ∀ d a, i ≠ .pack d a) (h : exec i s = .next t) :
    HostView s t := by
  refine ⟨?_, exec_sameHostSide h⟩
  cases i with
  | pack d a => exact absurd rfl (hi d a)
  | _ => cases h; rfl

/-- A transaction that is neither a PACK nor a Reset shows the host the same in states that showed it the same. -/
theorem hostStep_hostView {x : HostTxn} {s₁ s₂ t₁ t₂ : State} (hs : HostView s₁ s₂)
    (hpack : ∀ w d a, x = .issue w → decode w ≠ .command (.pack d a))
    (hreset : x ≠ .reset) (hresetDuring : ∀ w, x ≠ .resetDuring w)
    (h₁ : hostStep x s₁ = .next t₁) (h₂ : hostStep x s₂ = .next t₂) : HostView t₁ t₂ := by
  cases x with
  | issue w =>
    rw [hostStep] at h₁ h₂
    cases hd : decode w with
    | command i =>
      rw [issueWord_of_command hd] at h₁ h₂
      have hi : ∀ d a, i ≠ .pack d a := fun d a e => hpack w d a rfl (e ▸ hd)
      exact (exec_hostView hi h₁).symm.trans (hs.trans (exec_hostView hi h₂))
    | illegal why =>
      rw [issueWord_of_illegal hd] at h₁ h₂
      cases h₁; cases h₂
      exact hs
  | hostWrite a v => cases h₁; cases h₂; exact hs.hostWriteByte a v
  | hostRead a => cases h₁; cases h₂; exact hs.hostReadByte a
  | reset => exact absurd rfl hreset
  | resetDuring w => exact absurd rfl (hresetDuring w)

/-- Settles O19: both states perform the same transaction, and none but PACK and Reset carries limbs to the host. -/
theorem limbsReachTheHostOnlyThroughPack : Obligations.LimbsReachTheHostOnlyThroughPack := by
  intro s₁ s₂ t₁ t₂ hpm hside hpack hreset hresetDuring h₁ h₂
  have hs : HostView s₁ s₂ := ⟨hpm, hside⟩
  have hhost : s₂.host = s₁.host := hside.1.symm
  cases hh : s₁.host with
  | nil =>
    rw [step_of_nil hh] at h₁
    rw [step_of_nil (hhost.trans hh)] at h₂
    cases h₁; cases h₂
    exact hs
  | cons x rest =>
    rw [step_of_cons hh] at h₁
    rw [step_of_cons (hhost.trans hh)] at h₂
    exact hostStep_hostView (hs.setHost rest) (fun w d a e => hpack w rest d a (e ▸ hh))
      (fun e => hreset rest (e ▸ hh)) (fun w e => hresetDuring w rest (e ▸ hh)) h₁ h₂

/-! ### Frames -/

/-- Settles O21: the one destination of such a command is `E[d]`. -/
theorem registerCommandsFrame : Obligations.RegisterCommandsFrame := by
  intro d i s t hi h
  have hw : cmdWrites i = [.reg d] := by
    obtain ⟨a, rfl⟩ | ⟨a, b, rfl⟩ | ⟨a, b, rfl⟩ | ⟨a, b, rfl⟩ | ⟨a, rfl⟩ | ⟨a, rfl⟩ := hi <;> rfl
  have same : ∀ l, l ≠ .reg d → SameAt t s l := fun l hl =>
    (exec_sameAt_of_not_mem_writes h (by rwa [hw, List.mem_singleton])).symm
  obtain ⟨hhost, hans, hres⟩ := exec_sameHostSide h
  exact ⟨fun r hr => same (.reg r) (fun e => hr (Loc.reg.inj e)), fun a => same (.byte a) Loc.noConfusion,
    hhost.symm, hans.symm, hres.symm⟩

end Sys2Proof.Machine

/-! ## Proofs of spec/20_memory.md: the host's bytes, the order of its transactions, and equal memories -/

namespace Sys2Proof.Machine

/-! ### The host's bytes -/

/-- Settles O7: a step performs its transaction on the state without it, and a write is read back at its byte only. -/
theorem hostByteTransactions : Obligations.HostByteTransactions := by
  constructor
  · intro s addr v rest h
    exact ⟨hostWriteByte addr v (s.setHost rest), step_of_cons h, read_write_same s.pm addr v,
      fun a ha => read_write_ne s.pm v ha.symm, fun _ => rfl, rfl, rfl, rfl⟩
  · intro s addr rest h
    exact ⟨hostReadByte addr (s.setHost rest), step_of_cons h, rfl, fun _ => rfl, fun _ => rfl, rfl, rfl⟩

/-! ### One step: completion, the stream that remains, and the places left alone -/

theorem issueWord_completes (w : CmdWord) (s : State) : ∃ t, issueWord w s = .next t := by
  cases hd : decode w with
  | command i =>
    rw [issueWord_of_command hd]
    exact everyCommandCompletes i s
  | illegal why => exact ⟨s, issueWord_of_illegal hd s⟩

theorem hostStep_completes (x : HostTxn) (s : State) : ∃ t, hostStep x s = .next t := by
  cases x with
  | issue w => exact issueWord_completes w s
  | hostWrite a v => exact ⟨_, rfl⟩
  | hostRead a => exact ⟨_, rfl⟩
  | reset => exact ⟨_, rfl⟩
  | resetDuring w => exact ⟨_, rfl⟩

theorem step_completes (s : State) : ∃ t, step s = .next t := by
  cases hs : s.host with
  | nil => exact ⟨s, step_of_nil hs⟩
  | cons x rest =>
    rw [step_of_cons hs]
    exact hostStep_completes x _

/-- A step takes exactly the next transaction off the stream (R49). -/
theorem step_host {s t : State} {x : HostTxn} {rest : List HostTxn} (hs : s.host = x :: rest)
    (h : step s = .next t) : t.host = rest := by
  obtain ⟨hnil, -⟩ | ⟨y, rest', hs', hy⟩ := step_cases h
  · simp [hs] at hnil
  obtain ⟨rfl, rfl⟩ := List.cons.inj (hs.symm.trans hs')
  obtain ⟨w, i, -, -, he⟩ | ⟨w, why, -, -, rfl⟩ | ⟨a, v, -, rfl⟩ | ⟨a, -, rfl⟩ | ⟨-, rfl⟩ | ⟨w, -, rfl⟩ := hy
  · exact (exec_sameHostSide he).1.symm
  all_goals rfl

theorem mayWrite_issue_of_command {w : CmdWord} {i : Instr} (h : decode w = .command i) (l : Loc) :
    (HostTxn.issue w).mayWrite l = (cmdWrites i).contains l := by
  simp only [HostTxn.mayWrite, h]

/-- The table `mayWrite` is sound: a step changes no place that its transaction may not write. -/
theorem step_sameAt_of_not_mayWrite {s t : State} {x : HostTxn} {rest : List HostTxn} {l : Loc}
    (hs : s.host = x :: rest) (h : step s = .next t) (hx : x.mayWrite l = false) : SameAt s t l := by
  by_contra hl
  obtain ⟨y, rest', hs', hy⟩ := step_writes_of_not_sameAt h hl
  obtain ⟨rfl, rfl⟩ := List.cons.inj (hs.symm.trans hs')
  obtain ⟨w, i, rfl, hd, hw⟩ | ⟨a, v, rfl, rfl⟩ | rfl | ⟨w, rfl⟩ := hy
  · simp [mayWrite_issue_of_command hd, hw] at hx
  all_goals simp [HostTxn.mayWrite] at hx

/-! ### Runs -/

theorem run_succ_of_step {s t : State} (h : step s = .next t) (k : Nat) :
    Host.Core.run Sys2Proof.core (k + 1) s = Host.Core.run Sys2Proof.core k t := by
  have hcore : Sys2Proof.core.step s = .next t := h
  simp only [Host.Core.run, hcore]

/-- A run that completes is followed by a run from the state it reached. -/
theorem run_add_of_run {s t : State} {m : Nat} (h : Host.Core.run Sys2Proof.core m s = .next t) (n : Nat) :
    Host.Core.run Sys2Proof.core (m + n) s = Host.Core.run Sys2Proof.core n t := by
  induction m generalizing s with
  | zero =>
    cases h
    rw [Nat.zero_add]
  | succ m ih =>
    obtain ⟨u, hu⟩ := step_completes s
    rw [run_succ_of_step hu] at h
    rw [Nat.succ_add, run_succ_of_step hu, ih h]

/-- Transactions that may not write a place are performed one step each and leave the place as it was. -/
theorem run_sameAt_of_not_mayWrite {l : Loc} {between rest : List HostTxn}
    (hb : ∀ x ∈ between, x.mayWrite l = false) {s : State} (hs : s.host = between ++ rest) :
    ∃ t : State, Host.Core.run Sys2Proof.core between.length s = .next t ∧ t.host = rest ∧ SameAt s t l := by
  induction between generalizing s with
  | nil => exact ⟨s, rfl, hs, SameAt.refl s l⟩
  | cons x between ih =>
    rw [List.forall_mem_cons] at hb
    obtain ⟨hx, hb⟩ := hb
    obtain ⟨u, hu⟩ := step_completes s
    obtain ⟨t, hrun, hhost, hl⟩ := ih hb (step_host hs hu)
    exact ⟨t, (run_succ_of_step hu _).trans hrun, hhost, (step_sameAt_of_not_mayWrite hs hu hx).trans hl⟩

/-- Settles O10: the write sets the byte, the transactions between leave it alone, the read answers it. -/
theorem hostReadReturnsTheLatestWrite : Obligations.HostReadReturnsTheLatestWrite := by
  obtain ⟨hostWrite_sets, hostRead_answers⟩ := hostByteTransactions
  intro s addr v between rest hs hb
  obtain ⟨s₁, hstep₁, hread, -, -, hhost₁, -, -⟩ := hostWrite_sets s addr v _ hs
  obtain ⟨s₂, hrun, hhost₂, hkept⟩ := run_sameAt_of_not_mayWrite hb hhost₁
  obtain ⟨t, hstep₂, hans, -, -, hhost, -⟩ := hostRead_answers s₂ addr rest hhost₂
  have hv : Memory.read s₂.pm addr = v := Eq.trans (Eq.symm hkept) hread
  refine ⟨t, ?_, by rw [hans, hv, List.head?_cons], hhost⟩
  calc Host.Core.run Sys2Proof.core (between.length + 2) s
    _ = Host.Core.run Sys2Proof.core (between.length + 1) s₁ := run_succ_of_step hstep₁ _
    _ = Host.Core.run Sys2Proof.core 1 s₂ := run_add_of_run hrun 1
    _ = .next t := run_succ_of_step hstep₂ 0

/-! ### Equal memories -/

theorem wfFrom_cons {lo b : Nat} {v : Byte} {m : Memory} :
    Memory.wfFrom lo ((b, v) :: m) = true ↔
      lo ≤ b ∧ b < 256 ∧ v ≠ Memory.unlisted ∧ Memory.wfFrom (b + 1) m = true := by
  simp only [Memory.wfFrom, Bool.and_eq_true, decide_eq_true_eq, and_assoc]

theorem find_cons_same (b : Nat) (v : Byte) (m : Memory) : Memory.find ((b, v) :: m) b = some v := by
  simp only [Memory.find, if_true]

theorem find_cons_ne {a b : Nat} (h : b ≠ a) (v : Byte) (m : Memory) :
    Memory.find ((b, v) :: m) a = Memory.find m a := by
  simp only [Memory.find, h, if_false]

theorem find_none_of_256_le {lo a : Nat} {m : Memory} (h : Memory.wfFrom lo m = true) (ha : 256 ≤ a) :
    Memory.find m a = none := by
  induction m generalizing lo with
  | nil => rfl
  | cons c m ih =>
    obtain ⟨b, v⟩ := c
    obtain ⟨-, hb, -, hm⟩ := wfFrom_cons.1 h
    rw [find_cons_ne (by omega), ih hm]

/-- In a canonical memory the byte read tells whether the address is listed. -/
theorem find_eq_of_wf {m : Memory} (h : Memory.wf m = true) (a : Addr) :
    Memory.find m a.toNat = if Memory.read m a = Memory.unlisted then none else some (Memory.read m a) := by
  rw [Memory.read]
  cases hf : Memory.find m a.toNat with
  | none => simp
  | some v => simp [find_ne_unlisted h hf]

/-- The first address that a canonical list holds is no higher than any other list's that holds the same. -/
theorem first_addr_le {lo b b' : Nat} {v v' : Byte} {m m' : Memory}
    (h' : Memory.wfFrom lo ((b', v') :: m') = true)
    (hf : ∀ a, Memory.find ((b, v) :: m) a = Memory.find ((b', v') :: m') a) : b' ≤ b := by
  by_contra hlt
  obtain ⟨-, hb', hv', hm'⟩ := wfFrom_cons.1 h'
  have listed := hf b
  rw [find_cons_same, find_none_of_wfFrom (wfFrom_cons.2 ⟨le_rfl, hb', hv', hm'⟩) (by omega)] at listed
  cases listed

/-- A canonical list is determined by what it holds at each address. -/
theorem eq_of_find_eq {lo : Nat} {m m' : Memory} (h : Memory.wfFrom lo m = true) (h' : Memory.wfFrom lo m' = true)
    (hf : ∀ a, Memory.find m a = Memory.find m' a) : m = m' := by
  induction m generalizing lo m' with
  | nil =>
    cases m' with
    | nil => rfl
    | cons c' m' => simpa [Memory.find] using hf c'.1
  | cons c m ih =>
    cases m' with
    | nil => simpa [Memory.find] using hf c.1
    | cons c' m' =>
      obtain ⟨b, v⟩ := c
      obtain ⟨b', v'⟩ := c'
      obtain rfl : b = b' := le_antisymm (first_addr_le h fun a => (hf a).symm) (first_addr_le h' hf)
      obtain ⟨-, -, -, hm⟩ := wfFrom_cons.1 h
      obtain ⟨-, -, -, hm'⟩ := wfFrom_cons.1 h'
      have hv : some v = some v' := by simpa only [find_cons_same] using hf b
      have hrest : ∀ a, Memory.find m a = Memory.find m' a := by
        intro a
        by_cases ha : b = a
        · rw [find_none_of_wfFrom hm (by omega), find_none_of_wfFrom hm' (by omega)]
        · simpa only [find_cons_ne ha] using hf a
      rw [Option.some.inj hv, ih hm hm' hrest]

/-- Settles O15: reads determine the cells below 256, and a canonical memory holds no others. -/
theorem canonicalMemoriesReadingAlikeAreEqual : Obligations.CanonicalMemoriesReadingAlikeAreEqual := by
  intro m m' h h' hread
  refine eq_of_find_eq h h' fun a => ?_
  by_cases ha : a < 256
  · have hfind := find_eq_of_wf h (BitVec.ofNat 8 a)
    rw [hread, ← find_eq_of_wf h', BitVec.toNat_ofNat, Nat.mod_eq_of_lt ha] at hfind
    exact hfind
  · rw [find_none_of_256_le h (by omega), find_none_of_256_le h' (by omega)]

end Sys2Proof.Machine

/-! ## Proofs of spec/30_encoding.md: words and commands, illegal words, the assembler, and what a step runs -/

namespace Sys2Proof.Machine

/-! ### The rows of the table, and the decoder in terms of them -/

/-- A word that two rows select shows that the rows overlap. -/
theorem overlaps_of_selects {r q : CmdRow} {w : CmdWord} (hr : w &&& r.mask = r.pattern)
    (hq : w &&& q.mask = q.pattern) : r.overlaps q = true := by
  rw [CmdRow.overlaps, beq_iff_eq, ← hr, ← hq]
  ac_rfl

theorem overlaps_comm (r q : CmdRow) : r.overlaps q = q.overlaps r := BEq.comm

theorem row_eq_of_opcode : ∀ r ∈ cmdRows, ∀ q ∈ cmdRows, r.op = q.op → r = q := by decide

/-- The rows are disjoint (R64). -/
theorem row_eq_of_selects {r q : CmdRow} {w : CmdWord} (hr : r ∈ cmdRows) (hq : q ∈ cmdRows)
    (hrw : w &&& r.mask = r.pattern) (hqw : w &&& q.mask = q.pattern) : r = q := by
  by_contra hne
  have symm : Std.Symm fun r q : CmdRow => r.overlaps q = false := ⟨fun r q h => overlaps_comm r q ▸ h⟩
  have hdisjoint : r.overlaps q = false := cmdRows_disjoint.forall hr hq hne
  exact Bool.false_ne_true (hdisjoint.symm.trans (overlaps_of_selects hrw hqw))

theorem selects_eq_true_iff (r : CmdRow) (w : CmdWord) : r.selects w = true ↔ w &&& r.mask = r.pattern := beq_iff_eq

/-- Because the rows are disjoint, the first row that selects a word is the only one. -/
theorem decode_of_selects {op : Opcode} {mask pattern w : CmdWord} (hr : ⟨op, mask, pattern⟩ ∈ cmdRows)
    (hw : w &&& mask = pattern) : decode w = .command (buildCmd op w) := by
  cases hf : cmdRows.find? (fun r => r.selects w) with
  | none => exact absurd ((selects_eq_true_iff _ w).2 hw) (List.find?_eq_none.1 hf _ hr)
  | some q =>
    have hqw : q.selects w = true := List.find?_some hf (p := fun r : CmdRow => r.selects w)
    rw [decode, hf, ← row_eq_of_selects hr (List.mem_of_find?_eq_some hf) hw ((selects_eq_true_iff q w).1 hqw)]

/-- A command comes from a row that selects the word. -/
theorem row_of_decode {w : CmdWord} {i : Instr} (h : decode w = .command i) :
    ∃ r ∈ cmdRows, r.selects w = true ∧ buildCmd r.op w = i := by
  rw [decode] at h
  split at h
  case h_1 r hf =>
    exact ⟨r, List.mem_of_find?_eq_some hf, List.find?_some hf (p := fun r : CmdRow => r.selects w),
      Decoded.command.inj h⟩
  case h_2 => cases h

theorem buildCmd_opcode (op : Opcode) (w : CmdWord) : (buildCmd op w).opcode = op := by cases op <;> rfl

/-- A word that decodes to a command is selected by the row of the command's opcode. -/
theorem selects_of_decode {op : Opcode} {mask pattern w : CmdWord} {i : Instr} (hr : ⟨op, mask, pattern⟩ ∈ cmdRows)
    (h : decode w = .command i) (hop : i.opcode = op) : w &&& mask = pattern := by
  obtain ⟨q, hq, hw, rfl⟩ := row_of_decode h
  rw [buildCmd_opcode] at hop
  cases row_eq_of_opcode q hq _ hr hop
  exact (selects_eq_true_iff _ w).1 hw

/-! ### Encoding a command and decoding it again -/

/-- `EncodeMatchesRow` for every command. -/
theorem encodeMatchesRow (i : Instr) : Laws.EncodeMatchesRow.Statement i := by
  cases i with
  | unpack d a => exact Laws.EncodeMatchesRow.unpack d a
  | pack d a => exact Laws.EncodeMatchesRow.pack d a
  | add d a b => exact Laws.EncodeMatchesRow.add d a b
  | sub d a b => exact Laws.EncodeMatchesRow.sub d a b
  | mul d a b => exact Laws.EncodeMatchesRow.mul d a b
  | carry d a => exact Laws.EncodeMatchesRow.carry d a
  | inv d a => exact Laws.EncodeMatchesRow.inv d a
  | swap a b k => exact Laws.EncodeMatchesRow.swap a b k

theorem wellFormed_all (i : Instr) : i.wellFormed = true := (encodeMatchesRow i).1

/-- The fields of a command's word are the command's operands. -/
theorem fields_cmdWord {op : Nat} (ho : op < 16) (d a b : Fin 8) (k : BitVec 1) :
    fieldD (cmdWord op d.val a.val b.val k.toNat) = d ∧ fieldA (cmdWord op d.val a.val b.val k.toNat) = a ∧
    fieldB (cmdWord op d.val a.val b.val k.toNat) = b ∧ fieldK (cmdWord op d.val a.val b.val k.toNat) = k :=
  ⟨Fin.ext (fieldD_cmdWord ho d.isLt a.isLt b.isLt k.isLt), Fin.ext (fieldA_cmdWord ho d.isLt a.isLt b.isLt k.isLt),
    Fin.ext (fieldB_cmdWord ho d.isLt a.isLt b.isLt k.isLt),
    BitVec.eq_of_toNat_eq (fieldK_cmdWord ho d.isLt a.isLt b.isLt k.isLt)⟩

theorem buildCmd_encode (i : Instr) : buildCmd i.opcode (encode i) = i := by
  cases i with
  | unpack d a =>
    obtain ⟨hd, ha, -, -⟩ := fields_cmdWord (op := 1) (by decide) d a 0 0
    exact congrArg₂ Instr.unpack hd ha
  | pack d a =>
    obtain ⟨hd, ha, -, -⟩ := fields_cmdWord (op := 2) (by decide) d a 0 0
    exact congrArg₂ Instr.pack hd ha
  | add d a b =>
    obtain ⟨hd, ha, hb, -⟩ := fields_cmdWord (op := 3) (by decide) d a b 0
    exact congr (congrArg₂ Instr.add hd ha) hb
  | sub d a b =>
    obtain ⟨hd, ha, hb, -⟩ := fields_cmdWord (op := 4) (by decide) d a b 0
    exact congr (congrArg₂ Instr.sub hd ha) hb
  | mul d a b =>
    obtain ⟨hd, ha, hb, -⟩ := fields_cmdWord (op := 5) (by decide) d a b 0
    exact congr (congrArg₂ Instr.mul hd ha) hb
  | carry d a =>
    obtain ⟨hd, ha, -, -⟩ := fields_cmdWord (op := 6) (by decide) d a 0 0
    exact congrArg₂ Instr.carry hd ha
  | inv d a =>
    obtain ⟨hd, ha, -, -⟩ := fields_cmdWord (op := 7) (by decide) d a 0 0
    exact congrArg₂ Instr.inv hd ha
  | swap a b k =>
    obtain ⟨-, ha, hb, hk⟩ := fields_cmdWord (op := 8) (by decide) 0 a b k
    exact congr (congrArg₂ Instr.swap ha hb) hk

/-- The word of a command is selected by the command's own row, and its fields are the operands. -/
theorem decode_encode (i : Instr) : decode (encode i) = .command i := by
  obtain ⟨-, hrow⟩ := encodeMatchesRow i
  simp only [List.any_eq_true, Bool.and_eq_true, decide_eq_true_eq] at hrow
  obtain ⟨r, hr, hop, hsel⟩ := hrow
  rw [decode_of_selects hr (beq_iff_eq.1 hsel), hop, buildCmd_encode]

/-- Settles O4: every command of the model is well formed, and `decode_encode` holds of all of them. -/
theorem decodeOfEncode : Obligations.DecodeOfEncode := fun i _ => decode_encode i

/-! ### The number of a word, and the word of a decoded command -/

/-- The word value that R62 gives a command, unused fields being 0. -/
def wordValue : Instr → Nat
  | .unpack d a => 1 * 4096 + d.val * 512 + a.val * 64
  | .pack d a => 2 * 4096 + d.val * 512 + a.val * 64
  | .add d a b => 3 * 4096 + d.val * 512 + a.val * 64 + b.val * 8
  | .sub d a b => 4 * 4096 + d.val * 512 + a.val * 64 + b.val * 8
  | .mul d a b => 5 * 4096 + d.val * 512 + a.val * 64 + b.val * 8
  | .carry d a => 6 * 4096 + d.val * 512 + a.val * 64
  | .inv d a => 7 * 4096 + d.val * 512 + a.val * 64
  | .swap a b k => 8 * 4096 + a.val * 64 + b.val * 8 + k.toNat

theorem encode_toNat (i : Instr) : (encode i).toNat = wordValue i := by
  cases i with
  | unpack d a | pack d a | carry d a | inv d a =>
    exact cmdWord_toNat (by decide) d.isLt a.isLt (by decide) (by decide)
  | add d a b | sub d a b | mul d a b => exact cmdWord_toNat (by decide) d.isLt a.isLt b.isLt (by decide)
  | swap a b k => exact cmdWord_toNat (by decide) (by decide) a.isLt b.isLt k.isLt

theorem fieldD_val (w : CmdWord) : (fieldD w).val = w.toNat / 512 % 8 := by
  simp only [fieldD, BitVec.val_toFin, BitVec.extractLsb'_toNat, Nat.shiftRight_eq_div_pow, Nat.reducePow]

theorem fieldA_val (w : CmdWord) : (fieldA w).val = w.toNat / 64 % 8 := by
  simp only [fieldA, BitVec.val_toFin, BitVec.extractLsb'_toNat, Nat.shiftRight_eq_div_pow, Nat.reducePow]

theorem fieldB_val (w : CmdWord) : (fieldB w).val = w.toNat / 8 % 8 := by
  simp only [fieldB, BitVec.val_toFin, BitVec.extractLsb'_toNat, Nat.shiftRight_eq_div_pow, Nat.reducePow]

theorem fieldK_toNat (w : CmdWord) : (fieldK w).toNat = w.toNat % 2 := by
  simp only [fieldK, BitVec.extractLsb'_toNat, Nat.shiftRight_eq_div_pow, Nat.reducePow, Nat.div_one]

/-- A row that selects a word leaves no bit of the word outside the opcode and the fields that its command uses. -/
theorem wordValue_buildCmd (w : CmdWord) :
    ∀ r ∈ cmdRows, r.selects w = true → wordValue (buildCmd r.op w) = w.toNat := by
  obtain ⟨h1, h2, h3, h4, h5, h6, h7, h8⟩ := selects_iff w
  simp only [cmdRows, List.forall_mem_cons, h1, h2, h3, h4, h5, h6, h7, h8, buildCmd, wordValue, fieldD_val, fieldA_val,
    fieldB_val, fieldK_toNat]
  simp only [List.not_mem_nil, false_implies, implies_true, and_true]
  omega

/-- A word that decodes to a command is the command's word. -/
theorem encode_of_decode {w : CmdWord} {i : Instr} (h : decode w = .command i) : encode i = w := by
  obtain ⟨r, hr, hw, rfl⟩ := row_of_decode h
  exact BitVec.eq_of_toNat_eq ((encode_toNat _).trans (wordValue_buildCmd w r hr hw))

theorem decode_eq_command_iff {w : CmdWord} {i : Instr} : decode w = .command i ↔ encode i = w :=
  ⟨encode_of_decode, fun h => h ▸ decode_encode i⟩

/-- Settles O3: the row of an opcode selects what decodes to it, and the words' numbers are those of `wordValue`. -/
theorem wordsSelectByMaskAndMatch : Obligations.WordsSelectByMaskAndMatch := by
  refine ⟨fun w => ?_, fun d a b k => ?_, fun w i => encode_of_decode⟩
  · exact ⟨⟨fun ⟨_, _, h⟩ => selects_of_decode (op := .unpack) (by decide) h rfl,
        fun h => ⟨_, _, decode_of_selects (op := .unpack) (by decide) h⟩⟩,
      ⟨fun ⟨_, _, h⟩ => selects_of_decode (op := .pack) (by decide) h rfl,
        fun h => ⟨_, _, decode_of_selects (op := .pack) (by decide) h⟩⟩,
      ⟨fun ⟨_, _, _, h⟩ => selects_of_decode (op := .add) (by decide) h rfl,
        fun h => ⟨_, _, _, decode_of_selects (op := .add) (by decide) h⟩⟩,
      ⟨fun ⟨_, _, _, h⟩ => selects_of_decode (op := .sub) (by decide) h rfl,
        fun h => ⟨_, _, _, decode_of_selects (op := .sub) (by decide) h⟩⟩,
      ⟨fun ⟨_, _, _, h⟩ => selects_of_decode (op := .mul) (by decide) h rfl,
        fun h => ⟨_, _, _, decode_of_selects (op := .mul) (by decide) h⟩⟩,
      ⟨fun ⟨_, _, h⟩ => selects_of_decode (op := .carry) (by decide) h rfl,
        fun h => ⟨_, _, decode_of_selects (op := .carry) (by decide) h⟩⟩,
      ⟨fun ⟨_, _, h⟩ => selects_of_decode (op := .inv) (by decide) h rfl,
        fun h => ⟨_, _, decode_of_selects (op := .inv) (by decide) h⟩⟩,
      ⟨fun ⟨_, _, _, h⟩ => selects_of_decode (op := .swap) (by decide) h rfl,
        fun h => ⟨_, _, _, decode_of_selects (op := .swap) (by decide) h⟩⟩⟩
  · exact ⟨encode_toNat (.unpack d a), encode_toNat (.pack d a), encode_toNat (.add d a b), encode_toNat (.sub d a b),
      encode_toNat (.mul d a b), encode_toNat (.carry d a), encode_toNat (.inv d a), encode_toNat (.swap a b k)⟩

/-! ### The illegal words -/

/-- A word is illegal exactly when no row selects it. -/
theorem decode_illegal_iff (w : CmdWord) : (∃ why, decode w = .illegal why) ↔ ∀ r ∈ cmdRows, ¬ r.selects w = true := by
  rw [decode, ← List.find?_eq_none]
  cases cmdRows.find? (fun r => r.selects w) <;> simp

/-- R64's list of illegal words, as tests of the word's number. -/
theorem decode_illegal_iff_listed (w : CmdWord) : (∃ why, decode w = .illegal why) ↔
    (w.toNat / 4096 = 0 ∨ 9 ≤ w.toNat / 4096) ∨
    w.toNat / 2 % 4 ≠ 0 ∨
    (w.toNat / 4096 ∈ [1, 2, 6, 7] ∧ (w.toNat / 8 % 8 ≠ 0 ∨ w.toNat % 2 = 1)) ∨
    (w.toNat / 4096 ∈ [3, 4, 5] ∧ w.toNat % 2 = 1) ∨
    (w.toNat / 4096 = 8 ∧ w.toNat / 512 % 8 ≠ 0) := by
  obtain ⟨h1, h2, h3, h4, h5, h6, h7, h8⟩ := selects_iff w
  simp only [decode_illegal_iff, cmdRows, List.forall_mem_cons, h1, h2, h3, h4, h5, h6, h7, h8]
  simp only [List.mem_cons, List.not_mem_nil, or_false, false_implies, implies_true, and_true]
  omega

/-! ### Counting the words -/

theorem encode_injective : Function.Injective encode := fun i j h =>
  Decoded.command.inj ((decode_encode i).symm.trans (h ▸ decode_encode j))

/-- The words of one opcode. -/
def wordsOf (op : Opcode) : Set CmdWord := {w | ∃ i : Instr, i.opcode = op ∧ decode w = .command i}

/-- How many legal words R64 counts for each opcode. -/
def wordCount : Opcode → Nat
  | .unpack | .pack | .carry | .inv => 64
  | .add | .sub | .mul => 512
  | .swap => 128

theorem mem_wordsOf {op : Opcode} {w : CmdWord} : w ∈ wordsOf op ↔ ∃ i : Instr, i.opcode = op ∧ encode i = w := by
  simp only [← decode_eq_command_iff]; rfl

theorem card_bitVec (n : Nat) : Nat.card (BitVec n) = 2 ^ n := by
  rw [Nat.card_eq_fintype_card, ← FinEnum.card_eq_fintypeCard, FinEnum.card_bitVec]

/-- An opcode has as many words as there are operands `x` that make its commands `c x`. -/
theorem ncard_wordsOf_eq_card {op : Opcode} {α : Type} {c : α → Instr} (hinj : Function.Injective c)
    (hop : ∀ x, (c x).opcode = op) (hall : ∀ w, ∃ x, c x = buildCmd op w) : (wordsOf op).ncard = Nat.card α := by
  have hrange : wordsOf op = Set.range (encode ∘ c) := by
    ext w
    rw [mem_wordsOf]
    constructor
    · rintro ⟨i, rfl, rfl⟩
      obtain ⟨x, hx⟩ := hall (encode i)
      exact ⟨x, congrArg encode (hx.trans (buildCmd_encode i))⟩
    · rintro ⟨x, rfl⟩
      exact ⟨c x, hop x, rfl⟩
  rw [hrange, ← Set.image_univ, Set.ncard_image_of_injective _ (encode_injective.comp hinj), Set.ncard_univ]

theorem ncard_wordsOf_two {op : Opcode} (c : Fin 8 → Fin 8 → Instr)
    (hinj : ∀ {d a d' a'}, c d a = c d' a' → d = d' ∧ a = a') (hop : ∀ d a, (c d a).opcode = op)
    (hall : ∀ w, c (fieldD w) (fieldA w) = buildCmd op w) : (wordsOf op).ncard = 64 := by
  rw [ncard_wordsOf_eq_card (c := Function.uncurry c) (fun _ _ h => Prod.ext_iff.2 (hinj h)) (fun x => hop x.1 x.2)
    (fun w => ⟨(fieldD w, fieldA w), hall w⟩)]
  simp only [Nat.card_prod, Nat.card_fin]

theorem ncard_wordsOf_three {op : Opcode} (c : Fin 8 → Fin 8 → Fin 8 → Instr)
    (hinj : ∀ {d a b d' a' b'}, c d a b = c d' a' b' → d = d' ∧ a = a' ∧ b = b') (hop : ∀ d a b, (c d a b).opcode = op)
    (hall : ∀ w, c (fieldD w) (fieldA w) (fieldB w) = buildCmd op w) : (wordsOf op).ncard = 512 := by
  rw [ncard_wordsOf_eq_card (c := fun x : Fin 8 × Fin 8 × Fin 8 => c x.1 x.2.1 x.2.2)
    (fun _ _ h => Prod.ext (hinj h).1 (Prod.ext_iff.2 (hinj h).2)) (fun x => hop x.1 x.2.1 x.2.2)
    (fun w => ⟨(fieldD w, fieldA w, fieldB w), hall w⟩)]
  simp only [Nat.card_prod, Nat.card_fin]

theorem ncard_wordsOf_swap : (wordsOf .swap).ncard = 128 := by
  rw [ncard_wordsOf_eq_card (c := fun x : Fin 8 × Fin 8 × BitVec 1 => .swap x.1 x.2.1 x.2.2)
    (fun _ _ h => Prod.ext (Instr.swap.inj h).1 (Prod.ext_iff.2 (Instr.swap.inj h).2)) (fun _ => rfl)
    (fun w => ⟨(fieldA w, fieldB w, fieldK w), rfl⟩)]
  simp only [Nat.card_prod, Nat.card_fin, card_bitVec, Nat.reducePow, Nat.reduceMul]

theorem ncard_wordsOf (op : Opcode) : (wordsOf op).ncard = wordCount op := by
  cases op with
  | unpack => exact ncard_wordsOf_two .unpack Instr.unpack.inj (fun _ _ => rfl) (fun _ => rfl)
  | pack => exact ncard_wordsOf_two .pack Instr.pack.inj (fun _ _ => rfl) (fun _ => rfl)
  | add => exact ncard_wordsOf_three .add Instr.add.inj (fun _ _ _ => rfl) (fun _ => rfl)
  | sub => exact ncard_wordsOf_three .sub Instr.sub.inj (fun _ _ _ => rfl) (fun _ => rfl)
  | mul => exact ncard_wordsOf_three .mul Instr.mul.inj (fun _ _ _ => rfl) (fun _ => rfl)
  | carry => exact ncard_wordsOf_two .carry Instr.carry.inj (fun _ _ => rfl) (fun _ => rfl)
  | inv => exact ncard_wordsOf_two .inv Instr.inv.inj (fun _ _ => rfl) (fun _ => rfl)
  | swap => exact ncard_wordsOf_swap

/-- The opcodes, to sum over them. -/
def opcodes : Finset Opcode := {.unpack, .pack, .add, .sub, .mul, .carry, .inv, .swap}

theorem mem_opcodes (op : Opcode) : op ∈ opcodes := by cases op <;> decide

theorem wordsOf_disjoint {op op' : Opcode} (h : op ≠ op') : Disjoint (wordsOf op) (wordsOf op') := by
  refine Set.disjoint_left.2 ?_
  rintro w ⟨i, rfl, hi⟩ ⟨j, rfl, hj⟩
  rw [hi] at hj
  exact h (congrArg Instr.opcode (Decoded.command.inj hj))

theorem legal_eq_biUnion : {w : CmdWord | ∃ i, decode w = .command i} = ⋃ op ∈ (opcodes : Set Opcode), wordsOf op := by
  ext w
  simp [wordsOf, mem_opcodes]

theorem ncard_legal : Set.ncard {w : CmdWord | ∃ i, decode w = .command i} = 1920 := by
  rw [legal_eq_biUnion, (opcodes.finite_toSet).ncard_biUnion (fun _ _ => Set.toFinite _)
    (fun _ _ _ _ => wordsOf_disjoint), finsum_mem_coe_finset, Finset.sum_congr rfl fun op _ => ncard_wordsOf op]
  rfl

theorem illegal_eq_compl : {w : CmdWord | ∃ why, decode w = .illegal why} = {w | ∃ i, decode w = .command i}ᶜ := by
  ext w
  cases h : decode w <;> simp [h]

theorem ncard_illegal : Set.ncard {w : CmdWord | ∃ why, decode w = .illegal why} = 63616 := by
  rw [illegal_eq_compl, Set.ncard_compl, ncard_legal, card_bitVec]
  rfl

/-- Settles O5: the tests of the rows against R64's list, the counts by the commands' operands, and `issueWord`. -/
theorem illegalWordsAreTheListedOnes : Obligations.IllegalWordsAreTheListedOnes :=
  ⟨decode_illegal_iff_listed, fun _ _ _ => row_eq_of_selects, fun op => by cases op <;> exact ncard_wordsOf _,
    ncard_legal, ncard_illegal, ⟨.reservedOpcode, rfl⟩, ⟨.reservedOpcode, rfl⟩, fun _ _ s h => issueWord_of_illegal h s⟩

/-! ### The assembler table -/

theorem decode_wordValue (i : Instr) : decode (BitVec.ofNat 16 (wordValue i)) = .command i := by
  rw [← encode_toNat, BitVec.ofNat_toNat, BitVec.setWidth_eq, decode_encode]

/-- Settles O2: each word is the word value of its command, and each text is equal character by character. -/
theorem syntaxTableAssembles : Obligations.SyntaxTableAssembles := by
  refine ⟨fun d a => ⟨⟨?_, decode_wordValue (.unpack d a)⟩, ⟨?_, decode_wordValue (.pack d a)⟩,
      ⟨?_, decode_wordValue (.carry d a)⟩, ⟨?_, decode_wordValue (.inv d a)⟩⟩,
    fun d a b => ⟨⟨?_, decode_wordValue (.add d a b)⟩, ⟨?_, decode_wordValue (.sub d a b)⟩,
      ⟨?_, decode_wordValue (.mul d a b)⟩⟩,
    fun a b => ⟨⟨?_, decode_wordValue (.swap a b 0)⟩, ⟨?_, decode_wordValue (.swap a b 1)⟩⟩⟩
  all_goals simp [asm, asmLine, Instr.opcode, mnemonic, regName, slotName, ← String.toList_inj]

/-! ### What a step runs -/

/-- The word placed by `withFetchWord` is issued by the very next step, on the state that it was placed in front of. -/
theorem step_withFetchWord (s : State) (w : CmdWord) : step (s.withFetchWord 16 w.toNat) = issueWord w s := by
  have hword : BitVec.ofNat 16 (w.toNat % 2 ^ 16) = w := by
    rw [Nat.mod_eq_of_lt w.isLt, BitVec.ofNat_toNat, BitVec.setWidth_eq]
  rw [State.withFetchWord, hword]
  rfl

/-- Settles O6: a step issues the word on the state without the transaction. -/
theorem stepRunsTheDecodedCommand : Obligations.StepRunsTheDecodedCommand := by
  refine ⟨fun s w rest hs => ⟨fun i h => ?_, fun why h => ?_, fun _ => rfl, rfl, rfl, rfl, rfl⟩, fun s w i h => ?_⟩
  · exact (step_of_cons hs).trans (issueWord_of_command h _)
  · exact (step_of_cons hs).trans (issueWord_of_illegal h _)
  · exact ⟨wellFormed_all i, (step_withFetchWord s w).trans (issueWord_of_command h s)⟩

end Sys2Proof.Machine

/-! ## Proofs of spec/40_codec.md: the two commands, the decoder, and pack's passes, rounds and bytes -/

namespace Sys2Proof.Machine

/-! ### The bytes of a slot -/

theorem slotAddr_toNat (n : Slot) : (slotAddr n).toNat = 32 * n.val := by
  simpa [byteAddr] using slotByte_toNat n (j := 0) (by decide)

/-- The address of byte `j` of slot `n`, as the statements write it (R41, R63). -/
theorem byteAddr_slotAddr (n : Slot) (j : Nat) : byteAddr (slotAddr n) j = BitVec.ofNat 8 (32 * n.val + j) :=
  (BitVec.ofNat_add ..).symm

/-- Settles O22: the destinations of PACK are the bytes of its slot. -/
theorem packFrame : Obligations.PackFrame := by
  intro d a s t h
  obtain ⟨hhost, hans, hres⟩ := exec_sameHostSide h
  refine ⟨fun x hx => ?_, fun r => ?_, hhost.symm, hans.symm, hres.symm⟩
  · have outside : Loc.byte x ∉ cmdWrites (.pack d a) := fun hm => by
      have hslot := byte_mem_slotLocs.1 hm
      rw [slotAddr_toNat] at hx
      omega
    exact (exec_sameAt_of_not_mem_writes h outside).symm
  · have outside : Loc.reg r ∉ cmdWrites (.pack d a) := by simp [cmdWrites, slotLocs]
    exact (exec_sameAt_of_not_mem_writes h outside).symm

/-- Settles O26: PACK stores `fe_pack(E[a])` into its slot, and `packFrame` is the rest. -/
theorem packWritesTheSlot : Obligations.PackWritesTheSlot := by
  intro d a s
  have hexec := exec_pack s d a
  obtain ⟨hbytes, hregs, -, -, -⟩ := packFrame d a s _ hexec
  rw [slotAddr_toNat] at hbytes
  refine ⟨decode_wordValue (.pack d a), rfl, _, hexec, fun j => ?_, hbytes, hregs, exec_sameHostSide hexec⟩
  rw [← byteAddr_slotAddr, setSlot_pm, read_memWrite_inside (by decide) _ _ _ _ j.isLt]
  rfl

/-! ### The decoder, limb by limb -/

theorem feUnpack_toNat_lt (b : Packed) (i : Nat) (h : i < 16) :
    (feUnpack b)[i].toNat < 2 ^ 16 ∧ (i = 15 → (feUnpack b)[i].toNat < 2 ^ 15) := by
  have lo := b[2 * i].isLt
  have hi := b[2 * i + 1].isLt
  rw [feUnpack_toNat]
  split <;> omega

/-- The limbs of a decoded element are not negative, so their integer is their number. -/
theorem feUnpack_toInt (b : Packed) (i : Nat) (h : i < 16) : (feUnpack b)[i].toInt = (feUnpack b)[i].toNat := by
  obtain ⟨hlt, -⟩ := feUnpack_toNat_lt b i h
  exact toInt_of_toNat_lt (by omega)

/-- Settles O24: UNPACK stores `fe_unpack` of the slot's bytes into `E[d]`, and `registerCommandsFrame` is the rest. -/
theorem unpackWritesTheLimbs : Obligations.UnpackWritesTheLimbs := by
  intro d a s
  have hexec := exec_unpack s d a
  obtain ⟨hregs, hbytes, -, -, -⟩ := registerCommandsFrame d (.unpack d a) s _ (.inl ⟨a, rfl⟩) hexec
  refine ⟨decode_wordValue (.unpack d a), _, hexec, fun i => ?_, hregs, hbytes, exec_sameHostSide hexec⟩
  rw [reg_setReg_same, Fin.getElem_fin, feUnpack_toInt, feUnpack_toNat, slot_getElem, slot_getElem, byteAddr_slotAddr,
    byteAddr_slotAddr, Nat.add_assoc]
  exact apply_ite ..

/-! ### The serialized bytes -/

theorem toInt_emod_65536 (x : Limb) : x.toInt % 65536 = ((x.toNat % 65536 : Nat) : Int) := by
  rw [BitVec.toInt_eq_toNat_cond]
  split <;> omega

/-- Settles O28: the bytes of `feSerialize_toNat`, with the limb's number modulo 65536 as its integer modulo 65536. -/
theorem serializeTakesTwoBytesPerLimb : Obligations.SerializeTakesTwoBytesPerLimb := by
  intro t i
  have hmod := toInt_emod_65536 t[i.val]
  have half : (2 * i.val + 1) / 2 = i.val := by omega
  rw [feSerialize_toNat, feSerialize_toNat, if_pos (by omega), if_neg (by omega)]
  simp only [half, Nat.mul_div_cancel_left _ Nat.zero_lt_two, Fin.getElem_fin]
  omega

/-! ### One round, for any limbs -/

/-- The borrow `w_i` of a round as an integer (R84). -/
def roundBorrow (t : Elem) (i : Nat) : Int := (borrowIn t i).toNat

/-- The difference `m_i` of a round as an integer, before any mask (R84). -/
def roundDiff (t : Elem) (i : Nat) : Int := if h : i < 16 then (difference t i h).toInt else 0

@[simp] theorem roundBorrow_zero (t : Elem) : roundBorrow t 0 = 0 := rfl

theorem roundDiff_of_lt (t : Elem) {i : Nat} (h : i < 16) : roundDiff t i = (difference t i h).toInt := dif_pos h

/-- Every difference is `t_i - p_i - w_i`, wrapped (R84). -/
theorem roundDiff_eq_bmod (t : Elem) {i : Nat} (h : i < 16) :
    roundDiff t i = Int.bmod (t[i].toInt - pLimb i - roundBorrow t i) (2 ^ 64) := by
  rw [roundDiff_of_lt t h, difference, subBorrow, wrap64_toInt, roundBorrow]

/-- Every borrow is bit 16 of the difference below (R84). -/
theorem roundBorrow_succ (t : Elem) {i : Nat} (h : i < 16) : roundBorrow t (i + 1) = roundDiff t i / 65536 % 2 := by
  rw [roundBorrow, borrowIn_succ t h, borrowBit_eq, roundDiff_of_lt t h]
  split
  · exact Eq.symm ‹_›
  · rw [show ((BitVec.toNat (0 : BitVec 1) : Nat) : Int) = 0 from rfl]
    omega

theorem roundBorrow_cases (t : Elem) (i : Nat) : roundBorrow t i = 0 ∨ roundBorrow t i = 1 := by
  obtain h | h := bit_cases (borrowIn t i)
  · exact .inl (by rw [roundBorrow, h]; rfl)
  · exact .inr (by rw [roundBorrow, h]; rfl)

/-- A round keeps t when limb 15 borrows (R84). -/
theorem subpRound_of_borrow {t : Elem} (h : roundBorrow t 16 = 1) : subpRound t = t := by
  obtain hb | hb := bit_cases (borrowIn t 16)
  · simp [roundBorrow, hb] at h
  · rw [subpRound_eq, if_pos hb]

/-- A round takes the differences when limb 15 does not borrow, all but limb 15 reduced to 16 bits (R84). -/
theorem subpRound_toInt_of_no_borrow {t : Elem} (h : roundBorrow t 16 = 0) {i : Nat} (hi : i < 16) :
    (subpRound t)[i].toInt = if i = 15 then roundDiff t i else roundDiff t i % 65536 := by
  obtain hb | hb := bit_cases (borrowIn t 16)
  · simp only [subpRound_eq, hb, if_neg (by decide : ¬ (0 : BitVec 1) = 1), candidate_getElem t i hi]
    split
    · subst_vars
      exact (roundDiff_of_lt t hi).symm
    · rw [and_ffff_toInt, roundDiff_of_lt t hi]
  · simp [roundBorrow, hb] at h

/-- Settles O27: the borrows and differences of `candidate_getElem`, as integers. -/
theorem roundSubtractsWithBorrows : Obligations.RoundSubtractsWithBorrows := fun t =>
  ⟨rfl, roundBorrow t, roundDiff t, roundBorrow_zero t, fun i => roundDiff_eq_bmod t i.isLt,
    fun i => roundBorrow_succ t i.isLt, subpRound_of_borrow, fun h i => subpRound_toInt_of_no_borrow h i.isLt⟩

/-! ### The integer of a packed element -/

/-- The bytes of a packed element as digits to the base 256. -/
def byteDigits (b : Packed) (j : Fin 32) : Fin (2 ^ 8) := b[j].toFin

theorem packedInt_eq_digits (b : Packed) : packedInt b = (finFunctionFinEquiv (byteDigits b)).val := by
  simp only [packedInt, finFunctionFinEquiv_apply, byteDigits, BitVec.val_toFin, pow_mul]

theorem packedInt_lt (b : Packed) : packedInt b < 2 ^ 256 :=
  (packedInt_eq_digits b).trans_lt (Fin.is_lt _)

/-- Byte `j` is digit `j` of the integer (R18). -/
theorem byte_toNat_eq (b : Packed) (j : Nat) (h : j < 32) : b[j].toNat = packedInt b / 2 ^ (8 * j) % 256 := by
  have digit := congrFun (finFunctionFinEquiv.symm_apply_apply (byteDigits b)) ⟨j, h⟩
  rw [packedInt_eq_digits, pow_mul]
  exact (congrArg Fin.val digit).symm

theorem packedInt_injective : Function.Injective packedInt := by
  intro b b' h
  ext j hj : 1
  exact BitVec.eq_of_toNat_eq (by rw [byte_toNat_eq b j hj, byte_toNat_eq b' j hj, h])

/-- `packedOf` is the encoding: it inverts `packedInt` on 256-bit numbers (R18). -/
theorem packedInt_packedOf {n : Nat} (h : n < 2 ^ 256) : packedInt (packedOf n) = n := by
  have digits : byteDigits (packedOf n) = finFunctionFinEquiv.symm (⟨n, h⟩ : Fin ((2 ^ 8) ^ 32)) := by
    ext j
    simp [byteDigits, packedOf, finFunctionFinEquiv, pow_mul, Equiv.ofRightInverseOfCardLE]
  rw [packedInt_eq_digits, digits, Equiv.apply_symm_apply]

/-- Bytes `2i` and `2i + 1` as one number, the 16 bits that limb `i` carries (R80, R85). -/
def bytePair (b : Packed) (i : Fin 16) : Nat := b[2 * i.val].toNat + 256 * b[2 * i.val + 1].toNat

theorem packedInt_eq_sum_pairs (b : Packed) : packedInt b = ∑ i : Fin 16, bytePair b i * 2 ^ (16 * i.val) := by
  rw [packedInt, ← (finProdFinEquiv (m := 16) (n := 2)).sum_comp, Fintype.sum_prod_type]
  refine Finset.sum_congr rfl fun i _ => ?_
  simp only [Fin.sum_univ_two, bytePair, finProdFinEquiv, Equiv.coe_fn_mk, Fin.getElem_fin, Fin.val_zero, Fin.val_one,
    Nat.zero_add, Nat.add_comm 1]
  ring

/-! ### The value of limbs -/

/-- `Σ z[i] · 2^(16·i)` for integers `z` (R17). -/
def limbSum {n : Nat} (z : Fin n → Int) : Int := ∑ i : Fin n, z i * 2 ^ (16 * i.val)

theorem val_eq_limbSum (x : Elem) : val x = limbSum fun i => x[i].toInt := rfl

theorem limbSum_castSucc {n : Nat} (z : Fin (n + 1) → Int) :
    limbSum z = limbSum (fun i => z i.castSucc) + z (Fin.last n) * 2 ^ (16 * n) := Fin.sum_univ_castSucc _

/-- Limbs in [0, 2^16) are the digits of a number of `16·n` bits. -/
theorem limbSum_bounds {n : Nat} {z : Fin n → Int} (h : ∀ i, 0 ≤ z i ∧ z i < 2 ^ 16) :
    0 ≤ limbSum z ∧ limbSum z < 2 ^ (16 * n) := by
  induction n with
  | zero => simp [limbSum]
  | succ n ih =>
    obtain ⟨lo, hi⟩ := ih fun i => h i.castSucc
    obtain ⟨zlo, zhi⟩ := h (Fin.last n)
    have top : z (Fin.last n) * 2 ^ (16 * n) ≤ (2 ^ 16 - 1) * 2 ^ (16 * n) :=
      mul_le_mul_of_nonneg_right (by omega) (by positivity)
    have top0 : 0 ≤ z (Fin.last n) * 2 ^ (16 * n) := mul_nonneg zlo (by positivity)
    rw [limbSum_castSucc, Nat.mul_succ, pow_add]
    constructor <;> linarith

/-- Passing carries `c` from limb to limb changes the sum by the carry in and the carry out only. -/
theorem limbSum_of_carries {n : Nat} {x y : Fin n → Int} (c : Nat → Int)
    (h : ∀ i : Fin n, y i = x i + c i.val - 65536 * c (i.val + 1)) :
    limbSum y = limbSum x + c 0 - c n * 2 ^ (16 * n) := by
  induction n with
  | zero => simp [limbSum]
  | succ n ih =>
    rw [limbSum_castSucc, limbSum_castSucc x, ih fun i => h i.castSucc, h (Fin.last n), Nat.mul_succ, pow_add,
      Fin.val_last]
    ring

theorem limbSum_sub {n : Nat} (x y : Fin n → Int) : limbSum (fun i => x i - y i) = limbSum x - limbSum y := by
  simp only [limbSum, sub_mul, Finset.sum_sub_distrib]

/-- The limbs of p have the value p (R9). -/
theorem limbSum_pLimb : limbSum (fun i : Fin 16 => pLimb i.val) = Config.p := by decide +kernel

theorem val_bounds_of_settled {x : Elem} (h : Settled x) : 0 ≤ val x ∧ val x < 2 ^ 256 := limbSum_bounds h

/-! ### The decoder's value and what it forgets -/

/-- The pair of bytes of a limb is the limb, but for the bit that limb 15 loses (R80). -/
theorem bytePair_eq (b : Packed) (i : Fin 16) :
    (bytePair b i : Int)
      = (feUnpack b)[i].toInt + if i = 15 then ((bytePair b 15 / 2 ^ 15 * 2 ^ 15 : Nat) : Int) else 0 := by
  have limb : (feUnpack b)[i].toInt = ((if i.val = 15 then bytePair b i % 2 ^ 15 else bytePair b i : Nat) : Int) :=
    (feUnpack_toInt b i i.isLt).trans (congrArg Nat.cast (feUnpack_toNat b i i.isLt))
  by_cases h : i = 15
  · subst h
    rw [limb, if_pos (by decide), if_pos rfl]
    omega
  · have hv : i.val ≠ 15 := fun e => h (Fin.ext e)
    rw [limb, if_neg hv, if_neg h, Int.add_zero]

/-- What the decoder drops is the top bit of the last pair of bytes (R82). -/
theorem packedInt_eq_val_add (b : Packed) :
    (packedInt b : Int) = val (feUnpack b) + ((bytePair b 15 / 2 ^ 15 : Nat) : Int) * 2 ^ 255 := by
  have h255 : (2 ^ 255 : Int) = 2 ^ 15 * 2 ^ (16 * (15 : Fin 16).val) := by decide +kernel
  rw [packedInt_eq_sum_pairs, val, h255]
  simp only [Nat.cast_sum, Nat.cast_mul, Nat.cast_pow, Nat.cast_ofNat, bytePair_eq, add_mul, mul_assoc,
    Finset.sum_add_distrib, ite_mul, zero_mul, Fintype.sum_ite_eq']

/-- That bit is bit 255 of the integer. -/
theorem bytePair_top (b : Packed) : bytePair b 15 / 2 ^ 15 = packedInt b / 2 ^ 255 := by
  have pair : bytePair b 15 = b[30].toNat + 256 * b[31].toNat := rfl
  have hlt := packedInt_lt b
  rw [pair, byte_toNat_eq b 31 (by decide), byte_toNat_eq b 30 (by decide)]
  omega

/-- The value of a decoded element is the integer modulo 2^255 (R82). -/
theorem val_feUnpack (b : Packed) : val (feUnpack b) = ((packedInt b % 2 ^ 255 : Nat) : Int) := by
  have := packedInt_eq_val_add b
  rw [bytePair_top] at this
  omega

/-- The decoder keeps every bit of a pair of bytes, but for bit 7 of the last byte (R82). -/
theorem limb_eq_iff_bytes_eq (b b' : Packed) {i : Nat} (h : i < 16) :
    (feUnpack b)[i] = (feUnpack b')[i] ↔
      b[2 * i] = b'[2 * i] ∧ b[2 * i + 1].toNat % 128 = b'[2 * i + 1].toNat % 128 ∧
        (i ≠ 15 → b[2 * i + 1] = b'[2 * i + 1]) := by
  have lo := b[2 * i].isLt
  have lo' := b'[2 * i].isLt
  have hi := b[2 * i + 1].isLt
  have hi' := b'[2 * i + 1].isLt
  rw [← BitVec.toNat_inj, ← BitVec.toNat_inj, ← BitVec.toNat_inj (x := b[2 * i + 1]), feUnpack_toNat, feUnpack_toNat]
  by_cases h15 : i = 15
  · rw [if_pos h15, if_pos h15]
    omega
  · rw [if_neg h15, if_neg h15]
    omega

theorem feUnpack_eq_iff (b b' : Packed) : feUnpack b = feUnpack b' ↔
    (∀ j : Fin 32, j.val < 31 → b[j] = b'[j]) ∧ b[31].toNat % 128 = b'[31].toNat % 128 := by
  constructor
  · intro h
    have bytes := fun i (hi : i < 16) => (limb_eq_iff_bytes_eq b b' hi).1 (by rw [h])
    have low : ∀ j (h : j < 32), j < 31 → b[j] = b'[j] := by
      intro j hj hj31
      obtain ⟨i, rfl | rfl⟩ := Nat.even_or_odd' j
      · exact (bytes i (by omega)).1
      · exact (bytes i (by omega)).2.2 (by omega)
    exact ⟨fun j => low j j.isLt, (bytes 15 (by decide)).2.1⟩
  · rintro ⟨hlow, htop⟩
    have low : ∀ j (h : j < 32), j < 31 → b[j] = b'[j] := fun j h => hlow ⟨j, h⟩
    ext i hi : 1
    refine (limb_eq_iff_bytes_eq b b' hi).2 ⟨low _ _ (by omega), ?_, fun h15 => low _ _ (by omega)⟩
    by_cases h15 : i = 15
    · subst h15
      exact htop
    · rw [low (2 * i + 1) (by omega) (by omega)]

/-- Settles O25: the bounds and the value from the pairs of bytes, the kernel limb by limb. -/
theorem unpackValueAndBounds : Obligations.UnpackValueAndBounds := by
  refine ⟨fun b i => ?_, val_feUnpack, feUnpack_eq_iff⟩
  obtain ⟨hlt, hlt15⟩ := feUnpack_toNat_lt b i i.isLt
  rw [Fin.getElem_fin, feUnpack_toInt]
  omega

/-! ### The serialized value -/

theorem bytePair_feSerialize {t : Elem} (h : Settled t) (i : Fin 16) :
    (bytePair (feSerialize t) i : Int) = t[i].toInt := by
  obtain ⟨lo, hi⟩ := h i
  obtain ⟨hb, hb'⟩ := serializeTakesTwoBytesPerLimb t i
  rw [bytePair, hb, hb']
  omega

/-- Serializing settled limbs gives the encoding of their value (R85). -/
theorem packedInt_feSerialize {t : Elem} (h : Settled t) : (packedInt (feSerialize t) : Int) = val t := by
  rw [packedInt_eq_sum_pairs, val]
  push_cast [bytePair_feSerialize h]
  rfl

/-! ### The carry passes of step 1 -/

theorem natAbs_le_limbMax (x : Elem) {i : Nat} (h : i < 16) : x[i].toInt.natAbs ≤ limbMax x :=
  Finset.le_sup (f := fun i : Fin 16 => x[i].toInt.natAbs) (Finset.mem_univ ⟨i, h⟩)

/-- No sum of limb and carry leaves `i64` in a pass over `x`: the pass is exact (R122). -/
def ExactPass (x : Elem) : Prop :=
  ∀ i (h : i < 16), -2 ^ 63 ≤ x[i].toInt + carryIn x i ∧ x[i].toInt + carryIn x i < 2 ^ 63

/-- Within the bound of R123 a pass is exact, because every carry fits 48 bits. -/
theorem exactPass_of_bound {x : Elem} (h : limbMax x ≤ 2 ^ 62) : ExactPass x := fun i hi => by
  have hx := natAbs_le_limbMax x hi
  have hc := carryIn_abs x hi.le
  omega

theorem ExactPass.carryIn_succ {x : Elem} (hx : ExactPass x) {i : Nat} (h : i < 16) :
    carryIn x (i + 1) = (x[i].toInt + carryIn x i) / 65536 :=
  carryIn_succ_of_exact x h (hx i h).1 (hx i h).2

theorem ExactPass.carryIn_eq_carryInZ {x : Elem} (hx : ExactPass x) :
    ∀ i, i ≤ 16 → carryIn x i = carryInZ (ints x) i := by
  intro i
  induction i with
  | zero => exact fun _ => rfl
  | succ i ih =>
    intro hi
    rw [hx.carryIn_succ hi, carryInZ_succ _ hi, ints_getElem, ih (by omega)]

/-- An exact pass is the unbounded one (R12, R123). -/
theorem ExactPass.ints_feCarry {x : Elem} (hx : ExactPass x) : ints (feCarry x) = carryZ (ints x) :=
  Machine.ints_feCarry x fun i hi => by
    rw [← hx.carryIn_eq_carryInZ i hi.le]
    exact hx i hi

/-- The limbs after any pass are far within the bound, whatever the limbs before it (R122). -/
theorem limbMax_feCarry (x : Elem) : limbMax (feCarry x) ≤ 2 ^ 53 := by
  refine Finset.sup_le fun i _ => ?_
  have hc := carryIn_abs x le_rfl
  rw [Fin.getElem_fin]
  by_cases h0 : i.val = 0
  · simp only [h0, feCarry_limb0]
    omega
  · rw [feCarry_limb x i.isLt h0]
    omega

theorem exactPass_feCarry (x : Elem) : ExactPass (feCarry x) :=
  exactPass_of_bound ((limbMax_feCarry x).trans (by norm_num))

/-- The carry that limb `i` receives in the whole pass: limb 0 receives 38 times the carry out of limb 15 (R120). -/
def carryReceived (x : Elem) (i : Nat) : Int := if i = 0 then 38 * carryIn x 16 else carryIn x i

/-- In an exact pass every limb gives away what the next one receives (R122). -/
theorem ExactPass.feCarry_toInt {x : Elem} (hx : ExactPass x) {i : Nat} (h : i < 16) :
    (feCarry x)[i].toInt = x[i].toInt + carryReceived x i - 65536 * carryReceived x (i + 1) := by
  have hc := hx.carryIn_succ h
  rw [carryReceived, carryReceived, if_neg (Nat.succ_ne_zero i)]
  by_cases h0 : i = 0
  · subst h0
    rw [carryIn_zero] at hc
    rw [feCarry_limb0, if_pos rfl]
    omega
  · rw [feCarry_limb x h h0, if_neg h0]
    omega

/-- An exact pass takes `2·c15·p` from the value (R122). -/
theorem ExactPass.val_feCarry {x : Elem} (hx : ExactPass x) :
    val (feCarry x) = val x - 2 * carryIn x 16 * Config.p := by
  have key := limbSum_of_carries (x := fun i : Fin 16 => x[i].toInt) (carryReceived x)
    fun i => hx.feCarry_toInt i.isLt
  have c0 : carryReceived x 0 = 38 * carryIn x 16 := rfl
  have c16 : carryReceived x 16 = carryIn x 16 := rfl
  rw [c0, c16] at key
  rw [Config.p]
  exact key.trans (by rw [← val_eq_limbSum]; omega)

/-- An exact pass keeps the field element (R122). -/
theorem ExactPass.fe_feCarry {x : Elem} (hx : ExactPass x) : fe (feCarry x) = fe x := by
  rw [fe, hx.val_feCarry, Int.sub_mul_emod_self_right, fe]

/-! ### Three passes settle -/

/-- Limbs 1..15 are in [0, 2^16), as after any pass (R122). -/
def SettledAbove0 (x : Elem) : Prop := ∀ i (h : i < 16), i ≠ 0 → 0 ≤ x[i].toInt ∧ x[i].toInt < 2 ^ 16

theorem settledAbove0_feCarry (x : Elem) : SettledAbove0 (feCarry x) := fun i h hi => by
  rw [feCarry_limb x h hi]
  omega

/-- Through settled limbs a carry of -1, 0 or 1 is passed on or absorbed (R123). -/
theorem carryIn_eq_zero_or_first {x : Elem} (hx : SettledAbove0 x) {k : Nat} (hk : 1 ≤ k)
    (hc : -1 ≤ carryIn x k ∧ carryIn x k ≤ 1) {i : Nat} (hi : k ≤ i) :
    i ≤ 16 → carryIn x i = 0 ∨ carryIn x i = carryIn x k := by
  induction i, hi using Nat.le_induction with
  | base => exact fun _ => .inr rfl
  | succ i hki ih =>
    intro h16
    obtain ⟨lo, hi⟩ := hx i h16 (by omega)
    have := ih (by omega)
    rw [carryIn_succ_of_exact x h16 (by omega) (by omega)]
    omega

/-- The carry out of limb 15 is -1, 0 or 1 when limb 0 is within 53 bits: each limb divides the carry by 2^16 (R123). -/
theorem carryOut_of_settledAbove0 {x : Elem} (hx : SettledAbove0 x) (h : limbMax x ≤ 2 ^ 53) :
    -1 ≤ carryIn x 16 ∧ carryIn x 16 ≤ 1 := by
  have hexact := exactPass_of_bound (h.trans (by norm_num))
  have h0 := natAbs_le_limbMax x (i := 0) (by decide)
  have h1 := hx 1 (by decide) (by decide)
  have h2 := hx 2 (by decide) (by decide)
  have h3 := hx 3 (by decide) (by decide)
  have c1 : carryIn x 1 = (x[0].toInt + 0) / 65536 := hexact.carryIn_succ (by decide)
  have c2 : carryIn x 2 = (x[1].toInt + carryIn x 1) / 65536 := hexact.carryIn_succ (by decide)
  have c3 : carryIn x 3 = (x[2].toInt + carryIn x 2) / 65536 := hexact.carryIn_succ (by decide)
  have c4 : carryIn x 4 = (x[3].toInt + carryIn x 3) / 65536 := hexact.carryIn_succ (by decide)
  have := carryIn_eq_zero_or_first hx (k := 4) (by decide) (by omega) (i := 16) (by decide) le_rfl
  omega

/-- After a second pass limb 0 is nearly settled (R123). -/
theorem feCarry_limb0_of_settledAbove0 {x : Elem} (hx : SettledAbove0 x) (h : limbMax x ≤ 2 ^ 53) :
    -38 ≤ (feCarry x)[0].toInt ∧ (feCarry x)[0].toInt ≤ 2 ^ 16 + 37 := by
  have := carryOut_of_settledAbove0 hx h
  rw [feCarry_limb0]
  omega

/-- A third pass settles: a carry that comes round to limb 0 began there and left room for it (R123). -/
theorem settled_feCarry {x : Elem} (hx : SettledAbove0 x) (lo : -38 ≤ x[0].toInt) (hi : x[0].toInt ≤ 2 ^ 16 + 37) :
    Settled (feCarry x) := by
  have hc1 : carryIn x 1 = (x[0].toInt + 0) / 65536 :=
    carryIn_succ_of_exact x (i := 0) (by decide) (by rw [carryIn_zero]; omega) (by rw [carryIn_zero]; omega)
  have hc16 := carryIn_eq_zero_or_first hx le_rfl (i := 16) (by omega) (by omega) le_rfl
  intro i
  by_cases h0 : i.val = 0
  · simp only [Fin.getElem_fin, h0, feCarry_limb0]
    omega
  · exact settledAbove0_feCarry x i i.isLt h0

/-! ### Step 1 of PACK -/

/-- Within the bound the three passes of step 1 are the unbounded ones (R88 (a)). -/
theorem ints_feNormalize {n : Elem} (h : limbMax n ≤ 2 ^ 62) :
    ints (feNormalize n) = carryZ (carryZ (carryZ (ints n))) := by
  rw [feNormalize, (exactPass_feCarry _).ints_feCarry, (exactPass_feCarry _).ints_feCarry,
    (exactPass_of_bound h).ints_feCarry]

/-- Step 1 settles any limbs, because its first pass leaves 53 bits at most (R88 (b)). -/
theorem settled_feNormalize (n : Elem) : Settled (feNormalize n) := by
  obtain ⟨lo, hi⟩ := feCarry_limb0_of_settledAbove0 (settledAbove0_feCarry n) (limbMax_feCarry n)
  exact settled_feCarry (settledAbove0_feCarry _) lo hi

theorem fe_feNormalize {n : Elem} (h : limbMax n ≤ 2 ^ 62) : fe (feNormalize n) = fe n := by
  rw [feNormalize, (exactPass_feCarry _).fe_feCarry, (exactPass_feCarry _).fe_feCarry,
    (exactPass_of_bound h).fe_feCarry]

/-! ### One round on settled limbs -/

/-- The 16 bits that a round makes of limb `i`: the difference, and 2^16 more when it borrows (R84). -/
def roundDigit (t : Elem) (i : Nat) : Int := roundDiff t i + 65536 * roundBorrow t (i + 1)

theorem pLimb_range (i : Nat) : 0 ≤ pLimb i ∧ pLimb i < 65536 := by
  unfold pLimb
  split_ifs <;> decide

/-- On settled limbs no difference wraps, and a difference borrows exactly when it is negative (R84). -/
theorem roundDigit_of_settled {t : Elem} (h : Settled t) {i : Nat} (hi : i < 16) :
    roundDigit t i = t[i].toInt - pLimb i - roundBorrow t i + 65536 * roundBorrow t (i + 1) ∧
      0 ≤ roundDigit t i ∧ roundDigit t i < 65536 := by
  obtain ⟨tlo, thi⟩ : 0 ≤ t[i].toInt ∧ t[i].toInt < 2 ^ 16 := h ⟨i, hi⟩
  have hp := pLimb_range i
  have hw := roundBorrow_cases t i
  have diff : roundDiff t i = t[i].toInt - pLimb i - roundBorrow t i :=
    (roundDiff_eq_bmod t hi).trans (Int.bmod_eq_of_le (by omega) (by omega))
  have borrow := roundBorrow_succ t hi
  rw [roundDigit]
  omega

/-- The digits of a round add up to `val(t) - p`, plus 2^256 when limb 15 borrows (R84). -/
theorem limbSum_roundDigit {t : Elem} (h : Settled t) :
    limbSum (fun i : Fin 16 => roundDigit t i) = val t - Config.p + roundBorrow t 16 * 2 ^ 256 := by
  have key := limbSum_of_carries (x := fun i : Fin 16 => t[i].toInt - pLimb i) (y := fun i => roundDigit t i)
    (fun i => -roundBorrow t i) fun i => by
      rw [(roundDigit_of_settled h i.isLt).1, Fin.getElem_fin]
      ring
  rw [key, limbSum_sub, limbSum_pLimb, ← val_eq_limbSum, roundBorrow_zero]
  ring

/-- One round on settled limbs: it keeps t below p, and subtracts p otherwise (R88 (c)). -/
theorem subpRound_of_settled {t : Elem} (h : Settled t) :
    (val t < Config.p ∧ subpRound t = t) ∨
      (Config.p ≤ val t ∧ val (subpRound t) = val t - Config.p ∧ Settled (subpRound t)) := by
  have hsum := limbSum_roundDigit h
  obtain ⟨lo, hi⟩ : 0 ≤ limbSum (fun i : Fin 16 => roundDigit t i) ∧ _ :=
    limbSum_bounds fun i => (roundDigit_of_settled h i.isLt).2
  obtain hw | hw := roundBorrow_cases t 16
  · have limb : ∀ i : Fin 16, (subpRound t)[i].toInt = roundDigit t i := fun i => by
      have hd := (roundDigit_of_settled h i.isLt).2
      rw [roundDigit] at hd ⊢
      rw [Fin.getElem_fin, subpRound_toInt_of_no_borrow hw i.isLt]
      split
      · rw [‹i.val = 15›, hw, Int.mul_zero, Int.add_zero]
      · omega
    have hval : val (subpRound t) = limbSum (fun i : Fin 16 => roundDigit t i) := by
      simp only [val_eq_limbSum, limb]
    refine .inr ⟨by omega, by omega, fun i => ?_⟩
    rw [limb]
    exact (roundDigit_of_settled h i.isLt).2
  · exact .inl ⟨by omega, subpRound_of_borrow hw⟩

theorem settled_subpRound {t : Elem} (h : Settled t) : Settled (subpRound t) := by
  obtain ⟨-, e⟩ | ⟨-, -, hs⟩ := subpRound_of_settled h
  · exact e.symm ▸ h
  · exact hs

theorem val_subpRound {t : Elem} (h : Settled t) :
    val (subpRound t) = if (Config.p : Int) ≤ val t then val t - Config.p else val t := by
  obtain ⟨hlt, e⟩ | ⟨hle, hval, -⟩ := subpRound_of_settled h
  · rw [e, if_neg (by omega)]
  · rw [hval, if_pos hle]

theorem settled_feCanonicalize {t : Elem} (h : Settled t) : Settled (feCanonicalize t) :=
  settled_subpRound (settled_subpRound h)

/-- Two rounds take the value of settled limbs modulo p, because it is below `3·p` (R88 (d)). -/
theorem val_feCanonicalize {t : Elem} (h : Settled t) : val (feCanonicalize t) = fe t := by
  obtain ⟨lo, hi⟩ := val_bounds_of_settled h
  rw [feCanonicalize, val_subpRound (settled_subpRound h), val_subpRound h, fe, Config.p]
  split_ifs <;> omega

theorem fe_range (x : Elem) : 0 ≤ fe x ∧ fe x < Config.p :=
  ⟨Int.emod_nonneg _ (by decide), Int.emod_lt_of_pos _ (by decide)⟩

/-! ### PACK's output -/

/-- Within the bound PACK encodes the canonical representative (R88). -/
theorem packedInt_fePack {n : Elem} (h : limbMax n ≤ 2 ^ 62) : (packedInt (fePack n) : Int) = fe n := by
  have hs := settled_feNormalize n
  rw [fePack, packedInt_feSerialize (settled_feCanonicalize hs), val_feCanonicalize hs, fe_feNormalize h]

/-- Settles O29: each clause by its lemma about the passes, a round, two rounds and the output. -/
theorem packIsCanonical : Obligations.PackIsCanonical := by
  intro n h
  have hs := settled_feNormalize n
  obtain ⟨lo, hi⟩ := val_bounds_of_settled hs
  have hint := packedInt_fePack h
  obtain ⟨flo, fhi⟩ := fe_range n
  have hcanon : packedInt (fePack n) < Config.p := by omega
  refine ⟨ints_feNormalize h, hs, ⟨lo, hi, fe_feNormalize h⟩, ?_, ?_, hint, hcanon, ?_⟩
  · rintro t (rfl | rfl)
    · exact val_subpRound hs
    · exact val_subpRound (settled_subpRound hs)
  · rw [val_feCanonicalize hs]
    exact fe_range _
  · rw [byte_toNat_eq _ 31 (by decide)]
    rw [Config.p] at hcanon
    omega

/-! ### Pack after unpack -/

theorem limbMax_feUnpack (b : Packed) : limbMax (feUnpack b) ≤ 2 ^ 62 := by
  refine Finset.sup_le fun i _ => ?_
  obtain ⟨hlt, -⟩ := feUnpack_toNat_lt b i i.isLt
  rw [Fin.getElem_fin, feUnpack_toInt]
  omega

/-- The round trip drops bit 255 and reduces modulo p (R90). -/
theorem fePack_feUnpack (b : Packed) : fePack (feUnpack b) = packedOf (packedInt b % 2 ^ 255 % Config.p) := by
  have hint := packedInt_fePack (limbMax_feUnpack b)
  apply packedInt_injective
  rw [packedInt_packedOf (by rw [Config.p]; omega)]
  rw [fe, val_feUnpack] at hint
  exact_mod_cast hint

theorem packedOf_packedInt (b : Packed) : packedOf (packedInt b) = b :=
  packedInt_injective (packedInt_packedOf (packedInt_lt b))

/-- Settles O30: the round trip in each of the three ranges. -/
theorem packAfterUnpack : Obligations.PackAfterUnpack := by
  refine ⟨fun b h => ?_, fun b hlo hhi => ?_, fun b h => ?_⟩
  · rw [fePack_feUnpack, Nat.mod_eq_of_lt (h.trans (by decide)), Nat.mod_eq_of_lt h, packedOf_packedInt]
  · have hlt : packedInt b - Config.p < 19 := by
      rw [Config.p] at *
      omega
    rw [fePack_feUnpack, Nat.mod_eq_of_lt hhi, Nat.mod_eq_sub_mod hlo, Nat.mod_eq_of_lt (hlt.trans (by decide))]
    exact ⟨rfl, hlt⟩
  · have hlt := packedInt_lt b
    have hbit : packedInt b % 2 ^ 255 = packedInt b - 2 ^ 255 := by
      rw [byte_toNat_eq b 31 (by decide)] at h
      omega
    rw [fePack_feUnpack, hbit]

end Sys2Proof.Machine

/-! ## Proofs of spec/41_addsub.md: the two commands, their exactness, and subtraction after addition -/

namespace Sys2Proof.Machine

/-! ### The sum and the difference, limb by limb -/

theorem feAdd_getElem (a b : Elem) (i : Nat) (h : i < 16) : (feAdd a b)[i] = wrap64 (a[i].toInt + b[i].toInt) := by
  simp only [feAdd, Vector.getElem_ofFn, Fin.getElem_fin]

theorem feSub_getElem (a b : Elem) (i : Nat) (h : i < 16) : (feSub a b)[i] = wrap64 (a[i].toInt - b[i].toInt) := by
  simp only [feSub, Vector.getElem_ofFn, Fin.getElem_fin]

/-- Limb by limb, the difference of equal operands is 0 (R103). -/
theorem feSub_self_getElem (a : Elem) (i : Nat) (h : i < 16) : (feSub a a)[i] = 0 := by
  rw [feSub_getElem, wrap64_sub]
  exact BitVec.sub_self _

/-- Subtracting what was added restores every limb, because wrapping the sum does not change the difference modulo 2^64
(R105). -/
theorem feSub_feAdd (a b : Elem) : feSub (feAdd a b) b = a := by
  ext i h : 1
  rw [feSub_getElem, feAdd_getElem, wrap64_wrap_sub, Int.add_sub_cancel, wrap64_toInt_self]

/-! ### The two commands -/

/-- Settles O31: ADD stores `fe_add` of its sources into `E[d]`, and `registerCommandsFrame` is the rest. -/
theorem addCommand : Obligations.AddCommand := by
  intro d a b s
  have hexec := exec_add s d a b
  obtain ⟨hregs, hbytes, -, -, -⟩ := registerCommandsFrame d (.add d a b) s _ (.inr (.inl ⟨a, b, rfl⟩)) hexec
  refine ⟨decode_wordValue (.add d a b), _, hexec, fun i => ?_, hregs, hbytes, exec_sameHostSide hexec⟩
  simp only [reg_setReg_same, Fin.getElem_fin, feAdd_getElem, wrap64_toInt]

/-- Settles O32: SUB stores `fe_sub` of its sources into `E[d]`, and `registerCommandsFrame` is the rest. -/
theorem subCommand : Obligations.SubCommand := by
  intro d a b s
  have hexec := exec_sub s d a b
  obtain ⟨hregs, hbytes, -, -, -⟩ := registerCommandsFrame d (.sub d a b) s _ (.inr (.inr (.inl ⟨a, b, rfl⟩))) hexec
  refine ⟨decode_wordValue (.sub d a b), _, hexec, fun i => ?_, ?_, hregs, hbytes, exec_sameHostSide hexec⟩
  · simp only [reg_setReg_same, Fin.getElem_fin, feSub_getElem, wrap64_toInt]
  · rintro rfl i
    rw [reg_setReg_same]
    exact feSub_self_getElem _ i i.isLt

/-- Settles O34: `feSub_feAdd`, where `d ≠ b` keeps the ADD from overwriting the subtrahend. -/
theorem subUndoesAdd : Obligations.SubUndoesAdd := by
  refine ⟨fun a b => ⟨feSub_feAdd a b, congrArg fePack (feSub_feAdd a b)⟩, ?_⟩
  rintro d a b s t u hdb ⟨⟩ ⟨⟩
  rw [reg_setReg_same, reg_setReg_same, reg_setReg_ne s hdb, feSub_feAdd]

/-! ### Exactness -/

theorem limbSum_add {n : Nat} (x y : Fin n → Int) : limbSum (fun i => x i + y i) = limbSum x + limbSum y := by
  simp only [limbSum, add_mul, Finset.sum_add_distrib]

/-- When every limb sum lies in `i64`, the limbs of the sum are the sums of the limbs (R104). -/
theorem feAdd_toInt_of_range {a b : Elem}
    (h : ∀ i : Fin 16, -2 ^ 63 ≤ a[i].toInt + b[i].toInt ∧ a[i].toInt + b[i].toInt < 2 ^ 63) (i : Fin 16) :
    (feAdd a b)[i].toInt = a[i].toInt + b[i].toInt := by
  obtain ⟨lo, hi⟩ := h i
  exact (congrArg BitVec.toInt (feAdd_getElem a b i i.isLt)).trans (wrap64_toInt_of_range lo hi)

/-- When every limb difference lies in `i64`, the limbs of the difference are the differences of the limbs (R104). -/
theorem feSub_toInt_of_range {a b : Elem}
    (h : ∀ i : Fin 16, -2 ^ 63 ≤ a[i].toInt - b[i].toInt ∧ a[i].toInt - b[i].toInt < 2 ^ 63) (i : Fin 16) :
    (feSub a b)[i].toInt = a[i].toInt - b[i].toInt := by
  obtain ⟨lo, hi⟩ := h i
  exact (congrArg BitVec.toInt (feSub_getElem a b i i.isLt)).trans (wrap64_toInt_of_range lo hi)

/-- Settles O33: the limbs are the unbounded sums (differences), and values, residues and magnitudes follow from them. -/
theorem addAndSubAreExactInRange : Obligations.AddAndSubAreExactInRange := by
  refine fun a b => ⟨fun h => ?_, fun h => ?_⟩
  · have limb := feAdd_toInt_of_range h
    have hval : val (feAdd a b) = val a + val b := by simp only [val_eq_limbSum, limb, limbSum_add]
    refine ⟨hval, by rw [fe, hval, Int.add_emod, fe, fe], fun A B hAB i => ?_⟩
    obtain ⟨hA, hB⟩ := hAB i
    rw [limb]
    exact (Int.natAbs_add_le _ _).trans (Nat.add_le_add hA hB)
  · have limb := feSub_toInt_of_range h
    have hval : val (feSub a b) = val a - val b := by simp only [val_eq_limbSum, limb, limbSum_sub]
    refine ⟨hval, by rw [fe, hval, Int.sub_emod, fe, fe], fun A B hAB i => ?_⟩
    obtain ⟨hA, hB⟩ := hAB i
    rw [limb]
    exact (Int.natAbs_sub_le _ _).trans (Nat.add_le_add hA hB)

end Sys2Proof.Machine

/-! ## Proofs of spec/42_mul.md: the command, its symmetry, the fold at index 15, and the field product -/

namespace Sys2Proof.Machine

/-! ### The entries of the product on unbounded integers -/

/-- The convolution is symmetric (R111). -/
theorem convolveZ_comm (a b : Vector Int 16) : convolveZ a b = convolveZ b a := by
  ext k
  rw [convolveZ, convolveZ, Finset.sum_comm]
  simp only [Nat.add_comm, Int.mul_comm]

/-- A zero operand makes every entry 0 (R111). -/
theorem convolveZ_of_zero {a : Vector Int 16} (ha : ∀ i : Fin 16, a[i] = 0) (b : Vector Int 16) (k : Nat) :
    convolveZ a b k = 0 := by
  simp only [convolveZ, ha, Int.zero_mul, ite_self, Finset.sum_const_zero]

/-- No pair of limb numbers reaches entry 31 (R112). -/
theorem convolveZ_31 (a b : Vector Int 16) : convolveZ a b 31 = 0 :=
  Finset.sum_eq_zero fun _ _ => Finset.sum_eq_zero fun _ _ => if_neg (by omega)

/-- Entry 15 is no exception among the folded entries, because what a fold would add to it is 0 (R112). -/
theorem foldZ_convolveZ_getElem (a b : Vector Int 16) {k : Nat} (hk : k < 16) :
    (foldZ (convolveZ a b))[k] = convolveZ a b k + 38 * convolveZ a b (k + 16) := by
  rw [foldZ_getElem _ _ hk]
  split
  · rfl
  · obtain rfl : k = 15 := by omega
    rw [convolveZ_31, Int.mul_zero, Int.add_zero]

/-! ### The limbs before the carry passes -/

/-- What the two carry passes of `feMul` are applied to (R110). -/
abbrev mulLow (a b : Elem) : Elem := truncate (foldBack (convolve a b))

theorem feMul_eq (a b : Elem) : feMul a b = feCarry (feCarry (mulLow a b)) := rfl

/-- Settles O35: the limbs are those of `mulLow_getElem`, and `registerCommandsFrame` is the rest. -/
theorem mulCommand : Obligations.MulCommand := by
  intro d a b s
  have hexec := exec_mul s d a b
  obtain ⟨hregs, hbytes, -, -, -⟩ :=
    registerCommandsFrame d (.mul d a b) s _ (.inr (.inr (.inr (.inl ⟨a, b, rfl⟩)))) hexec
  refine ⟨decode_wordValue (.mul d a b), _, mulLow (s.reg a) (s.reg b), hexec, fun k => ?_, reg_setReg_same .., hregs,
    hbytes, exec_sameHostSide hexec⟩
  rw [Fin.getElem_fin, mulLow_getElem _ _ _ k.isLt, wrap64_toInt, foldZ_convolveZ_getElem _ _ k.isLt]
  simp only [convolveZ, Fin.getElem_fin, ints_getElem]

theorem convolve_31 (a b : Elem) : (convolve a b)[31] = 0 := by
  rw [convolve_getElem, convolveZ_31]
  rfl

/-- Settles O37: entry 15 is the only one that the model's fold leaves out, and entry 31 is 0. -/
theorem foldAtFifteenIsNeutral : Obligations.FoldAtFifteenIsNeutral := by
  refine fun a b => ⟨convolve_31 a b, ?_⟩
  ext k hk : 1
  rw [truncate_getElem _ _ hk, foldBack_getElem _ _ (by omega), Vector.getElem_ofFn]
  split
  · rfl
  · obtain rfl : k = 15 := by omega
    have h31 : (convolve a b)[15 + 16] = 0 := convolve_31 a b
    rw [h31, BitVec.ofNat_eq_ofNat, BitVec.toInt_zero, Int.mul_zero, Int.add_zero, wrap64_toInt_self]

/-! ### Commutation and zero -/

theorem mulLow_comm (a b : Elem) : mulLow a b = mulLow b a := by
  ext k hk : 1
  rw [mulLow_getElem, mulLow_getElem, convolveZ_comm]

theorem mulLow_of_zero {a : Elem} (ha : ∀ i : Fin 16, a[i] = 0) (b : Elem) {k : Nat} (hk : k < 16) :
    (mulLow a b)[k] = 0 := by
  have hz : ∀ i : Fin 16, (ints a)[i] = 0 := fun i =>
    (ints_getElem a i i.isLt).trans (congrArg BitVec.toInt (ha i))
  rw [mulLow_getElem _ _ _ hk, foldZ_convolveZ_getElem _ _ hk, convolveZ_of_zero hz, convolveZ_of_zero hz]
  rfl

/-- Settled limbs leave nothing to carry (R122). -/
theorem carryIn_of_settled {x : Elem} (h : Settled x) : ∀ i, i ≤ 16 → carryIn x i = 0 := by
  intro i
  induction i with
  | zero => exact fun _ => rfl
  | succ i ih =>
    intro hi
    obtain ⟨lo, hi'⟩ : 0 ≤ x[i].toInt ∧ x[i].toInt < 2 ^ 16 := h ⟨i, hi⟩
    have hc := ih (by omega)
    rw [carryIn_succ_of_exact x hi (by omega) (by omega)]
    omega

/-- A pass changes no settled limbs (R122). -/
theorem feCarry_of_settled {x : Elem} (h : Settled x) : feCarry x = x := by
  ext i hi : 1
  obtain ⟨lo, hi'⟩ : 0 ≤ x[i].toInt ∧ x[i].toInt < 2 ^ 16 := h ⟨i, hi⟩
  apply BitVec.eq_of_toInt_eq
  by_cases h0 : i = 0
  · subst h0
    rw [feCarry_limb0, carryIn_of_settled h 16 le_rfl]
    omega
  · rw [feCarry_limb x hi h0, carryIn_of_settled h i hi.le]
    omega

/-- Settles O36: both claims hold before the carry passes, and the passes keep zero limbs. -/
theorem mulCommutesLimbForLimb : Obligations.MulCommutesLimbForLimb := by
  refine ⟨fun a b => by rw [feMul_eq, feMul_eq, mulLow_comm], fun a b ha i => ?_⟩
  have zero : ∀ i : Fin 16, (mulLow a b)[i] = 0 := fun i => mulLow_of_zero ha b i.isLt
  have settled : Settled (mulLow a b) := fun i => by
    rw [zero]
    decide
  rw [feMul_eq, feCarry_of_settled settled, feCarry_of_settled settled, zero]

/-! ### The magnitudes of the entries -/

/-- How many pairs of limb numbers add up to `k`. -/
def pairCount (k : Nat) : Nat := ∑ i : Fin 16, ∑ j : Fin 16, if i.val + j.val = k then 1 else 0

/-- The rising and the falling half of the counts: one more pair per entry up to 15, then one less (R113). -/
theorem pairCount_eq : ∀ k : Fin 16, pairCount k = k + 1 ∧ pairCount (k + 16) = 15 - k := by decide +kernel

/-- An entry is a sum of `pairCount k` products, each of magnitude at most `A·B` (R113). -/
theorem natAbs_convolveZ_le (a b : Elem) (k : Nat) :
    (convolveZ (ints a) (ints b) k).natAbs ≤ pairCount k * (limbMax a * limbMax b) := by
  have product (i j : Fin 16) : ((if i.val + j.val = k then (ints a)[i] * (ints b)[j] else 0 : Int)).natAbs
      ≤ (if i.val + j.val = k then 1 else 0) * (limbMax a * limbMax b) := by
    split
    · rw [Int.natAbs_mul, Nat.one_mul, Fin.getElem_fin, Fin.getElem_fin, ints_getElem, ints_getElem]
      exact Nat.mul_le_mul (natAbs_le_limbMax a i.isLt) (natAbs_le_limbMax b j.isLt)
    · simp
  simp only [pairCount, Finset.sum_mul]
  exact (Int.natAbs_sum_le _ _).trans (Finset.sum_le_sum fun i _ =>
    (Int.natAbs_sum_le _ _).trans (Finset.sum_le_sum fun j _ => product i j))

/-- The bounds of R113 on the entries of the product, and on those of the folded product by the triangle inequality. -/
theorem product_bounds (a b : Elem) {k : Nat} (hk : k < 16) :
    (convolveZ (ints a) (ints b) k).natAbs ≤ (k + 1) * limbMax a * limbMax b ∧
    (convolveZ (ints a) (ints b) (k + 16)).natAbs ≤ (15 - k) * limbMax a * limbMax b ∧
    (foldZ (convolveZ (ints a) (ints b)))[k].natAbs ≤ (571 - 37 * k) * limbMax a * limbMax b := by
  obtain ⟨clow, chigh⟩ : pairCount k = k + 1 ∧ pairCount (k + 16) = 15 - k := pairCount_eq ⟨k, hk⟩
  have low := natAbs_convolveZ_le a b k
  have high := natAbs_convolveZ_le a b (k + 16)
  rw [clow] at low
  rw [chigh] at high
  simp only [Nat.mul_assoc]
  refine ⟨low, high, ?_⟩
  have count : 571 - 37 * k = (k + 1) + 38 * (15 - k) := by omega
  rw [foldZ_convolveZ_getElem _ _ hk, count, Nat.add_mul, Nat.mul_assoc 38]
  omega

/-! ### The value of the product -/

/-- The convolution multiplies the values: 2^(16·i) · 2^(16·j) is the weight of entry `i + j` (R113). -/
theorem limbSum_convolveZ (a b : Vector Int 16) :
    limbSum (fun k : Fin 32 => convolveZ a b k)
      = limbSum (fun i : Fin 16 => a[i]) * limbSum fun j : Fin 16 => b[j] := by
  have weight (i j : Fin 16) :
      ∑ k : Fin 32, (if i.val + j.val = k.val then a[i] * b[j] else 0) * 2 ^ (16 * k.val)
        = a[i] * 2 ^ (16 * i.val) * (b[j] * 2 ^ (16 * j.val)) := by
    rw [Finset.sum_eq_single (⟨i.val + j.val, by omega⟩ : Fin 32)]
    · rw [if_pos rfl, Nat.mul_add, pow_add]
      ring
    · intro k _ hk
      rw [if_neg fun e => hk (Fin.ext e.symm), Int.zero_mul]
    · exact fun h => absurd (Finset.mem_univ _) h
  rw [limbSum, limbSum, limbSum, Finset.sum_mul_sum]
  simp only [convolveZ, Finset.sum_mul, ← weight]
  rw [Finset.sum_comm]
  exact Finset.sum_congr rfl fun i _ => Finset.sum_comm

/-- The value of the upper entries, which the fold counts 38 times instead of 2^256 times. -/
def highValue (a b : Vector Int 16) : Int := limbSum fun k : Fin 16 => convolveZ a b (k + 16)

/-- Folding takes a multiple of `2·p = 2^256 - 38` from the product of the values (R110, R113). -/
theorem limbSum_foldZ (a b : Vector Int 16) :
    limbSum (fun k : Fin 16 => (foldZ (convolveZ a b))[k])
      = limbSum (fun i : Fin 16 => a[i]) * limbSum (fun j : Fin 16 => b[j]) - 2 * highValue a b * Config.p := by
  have split32 : limbSum (fun k : Fin 32 => convolveZ a b k)
      = limbSum (fun k : Fin 16 => convolveZ a b k) + 2 ^ 256 * highValue a b := by
    rw [highValue, limbSum, Fin.sum_univ_add (a := 16) (b := 16), limbSum, limbSum, Finset.mul_sum]
    refine congrArg₂ (· + ·) rfl (Finset.sum_congr rfl fun k _ => ?_)
    rw [Fin.val_natAdd, Nat.mul_add, pow_add, Nat.add_comm 16]
    ring
  have fold : limbSum (fun k : Fin 16 => (foldZ (convolveZ a b))[k])
      = limbSum (fun k : Fin 16 => convolveZ a b k) + 38 * highValue a b := by
    simp only [Fin.getElem_fin, foldZ_convolveZ_getElem _ _ (Fin.isLt _), limbSum_add, highValue]
    simp only [limbSum, Finset.mul_sum, Int.mul_assoc]
  rw [← limbSum_convolveZ, fold, split32, Config.p]
  omega

/-! ### Exactness -/

section
variable {a b : Elem} (h : 571 * limbMax a * limbMax b ≤ 2 ^ 62)
include h

/-- Within the bound every folded entry is far inside `i64` (R113). -/
theorem natAbs_foldZ_le {k : Nat} (hk : k < 16) : (foldZ (convolveZ (ints a) (ints b)))[k].natAbs ≤ 2 ^ 62 := by
  obtain ⟨-, -, hfold⟩ := product_bounds a b hk
  exact hfold.trans ((Nat.mul_le_mul_right _ (Nat.mul_le_mul_right _ (Nat.sub_le _ _))).trans h)

theorem ints_mulLow : ints (mulLow a b) = foldZ (convolveZ (ints a) (ints b)) :=
  ints_of_wrap _ _ (mulLow_getElem a b) fun k hk => by
    have := natAbs_foldZ_le h hk
    omega

theorem limbMax_mulLow : limbMax (mulLow a b) ≤ 2 ^ 62 :=
  Finset.sup_le fun k _ => by
    rw [Fin.getElem_fin, ← ints_getElem, ints_mulLow h]
    exact natAbs_foldZ_le h k.isLt

/-- Within the bound no wrap changes a value (R113). -/
theorem ints_feMul : ints (feMul a b) = mulZ (ints a) (ints b) := by
  rw [feMul_eq, (exactPass_feCarry _).ints_feCarry, (exactPass_of_bound (limbMax_mulLow h)).ints_feCarry, ints_mulLow h,
    mulZ]

theorem val_mulLow : val (mulLow a b) = val a * val b - 2 * highValue (ints a) (ints b) * Config.p := by
  have key := limbSum_foldZ (ints a) (ints b)
  rw [← ints_mulLow h] at key
  simpa only [val_eq_limbSum, Fin.getElem_fin, ints_getElem] using key

/-- Within the bound MUL is the product of the field (R113). -/
theorem fe_feMul : fe (feMul a b) = fe a * fe b % Config.p := by
  rw [feMul_eq, (exactPass_feCarry _).fe_feCarry, (exactPass_of_bound (limbMax_mulLow h)).fe_feCarry, fe, val_mulLow h,
    Int.sub_mul_emod_self_right, Int.mul_emod, fe, fe]

end

/-- After the first pass of MUL limb 0 fits 53 bits, so the second nearly settles it, for any operands (R113). -/
theorem feMul_limb0_bounds (a b : Elem) : -38 ≤ (feMul a b)[0].toInt ∧ (feMul a b)[0].toInt ≤ 2 ^ 16 + 37 :=
  feCarry_limb0_of_settledAbove0 (settledAbove0_feCarry _) (limbMax_feCarry _)

/-- Settles O38: the bounds of the entries, then exactness, the limbs after two passes and the field product. -/
theorem mulIsTheFieldProduct : Obligations.MulIsTheFieldProduct := by
  refine ⟨fun a b k hk => ?_, fun a b h => ⟨ints_feMul h, fun i => settledAbove0_feCarry _ i i.isLt,
    feMul_limb0_bounds a b, fe_feMul h⟩⟩
  obtain ⟨hlow, hhigh, hfold⟩ := product_bounds a b (Nat.lt_succ_of_le hk)
  exact ⟨hlow, hhigh, fun _ => hfold⟩

end Sys2Proof.Machine

/-! ## Proofs of spec/43_carry.md: the command, one pass, and three passes -/

namespace Sys2Proof.Machine

/-- The recurrence of the carries: each is taken after the limb has received the one before (R120). -/
theorem carryIn_succ_eq_bmod (x : Elem) {i : Nat} (h : i < 16) :
    carryIn x (i + 1) = Int.bmod (x[i].toInt + carryIn x i) (2 ^ 64) / 2 ^ 16 := by
  rw [carryIn_succ x h, wrap64_toInt]
  norm_num

/-- Settles O39: the carries are `carryIn`, the limbs those of `feCarry_result`, and `registerCommandsFrame` is the rest. -/
theorem carryCommand : Obligations.CarryCommand := by
  intro d a s
  have hexec := exec_carry s d a
  obtain ⟨hregs, hbytes, -, -, -⟩ :=
    registerCommandsFrame d (.carry d a) s _ (.inr (.inr (.inr (.inr (.inl ⟨a, rfl⟩))))) hexec
  refine ⟨decode_wordValue (.carry d a), _, carryIn (s.reg a), hexec, carryIn_zero _,
    fun i => carryIn_succ_eq_bmod _ i.isLt, ?_, fun i hi => ?_, hregs, hbytes, exec_sameHostSide hexec⟩
  · rw [reg_setReg_same, feCarry_limb0]
  · rw [reg_setReg_same]
    exact feCarry_limb _ i.isLt hi

/-- The multiple of p that an exact pass takes from the value, in powers of two: `2·p = 2^256 - 38` (R122). -/
theorem ExactPass.val_feCarry_eq_pow {x : Elem} (hx : ExactPass x) :
    val (feCarry x) = val x - carryIn x 16 * (2 ^ 256 - 38) := by
  have two_p : (2 * Config.p : Int) = 2 ^ 256 - 38 := by decide +kernel
  rw [hx.val_feCarry, ← two_p, Int.mul_comm 2, Int.mul_assoc]

/-- The vector `[0 ×15, -1]` of R122: its carry comes round and leaves limb 0 at -38. -/
def minusOneAtTop : Elem := (Vector.replicate 16 0).set 15 (-1)

theorem feCarry_not_idempotent_at_minusOneAtTop :
    feCarry (feCarry minusOneAtTop) ≠ feCarry minusOneAtTop := by decide +kernel

/-- Settles O40: the limbs from `feCarry_result`, the value from `ExactPass.val_feCarry`, and the spec's vector `[0 ×15, -1]`
against idempotence. -/
theorem carryPassProperties : Obligations.CarryPassProperties := by
  refine ⟨fun x i => settledAbove0_feCarry x i i.isLt, fun x => ?_, fun x => feCarry_of_settled,
    minusOneAtTop, feCarry_not_idempotent_at_minusOneAtTop⟩
  refine ⟨carryIn x, carryIn_zero x, fun i => carryIn_succ_eq_bmod x i.isLt, feCarry_limb0 x, fun h => ?_⟩
  have hx : ExactPass x := fun i hi => h ⟨i, hi⟩
  exact ⟨hx.val_feCarry_eq_pow, hx.val_feCarry, hx.fe_feCarry⟩

/-- A carry fits 48 bits and `2^16 + 38·2^47 < 2^53`, so any pass leaves limb 0 within 53 bits (R123). -/
theorem natAbs_feCarry_limb0_lt (x : Elem) : (feCarry x)[0].toInt.natAbs < 2 ^ 53 := by
  have hc := carryIn_abs x le_rfl
  rw [feCarry_limb0]
  omega

/-- Settles O41: the bound makes the first pass exact and every pass makes the next one exact; three passes are
`feNormalize`. -/
theorem threePassesSettle : Obligations.ThreePassesSettle := by
  intro x h
  have pass1 := (exactPass_of_bound h).ints_feCarry
  have pass2 := (exactPass_feCarry x).ints_feCarry
  rw [pass1] at pass2
  exact ⟨⟨pass1, natAbs_feCarry_limb0_lt x⟩,
    ⟨pass2, feCarry_limb0_of_settledAbove0 (settledAbove0_feCarry x) (limbMax_feCarry x)⟩,
    ⟨ints_feNormalize h, settled_feNormalize x⟩⟩

end Sys2Proof.Machine

/-! ## Proofs of spec/44_inverse.md: the command, its schedule, the field inverse, and an element times its inverse -/

namespace Sys2Proof.Machine

/-! ### The schedule -/

/-- Settles O43: the schedule is one closed list of 506 operations, which the kernel evaluates. -/
theorem invScheduleCounts : Obligations.InvScheduleCounts := by
  unfold Obligations.InvScheduleCounts
  decide +kernel

/-! ### The command -/

/-- The accumulator when positions 253 down to `i` are done (R130). -/
def invAcc (a : Elem) (i : Nat) : Elem := ((List.range' i (254 - i)).reverse.flatMap chainAt).foldl (chainStep a) a

theorem invAcc_start (a : Elem) : invAcc a 254 = a := rfl

theorem feInv_eq_invAcc (a : Elem) : feInv a = invAcc a 0 := by
  rw [feInv, invChain, List.range_eq_range', invAcc]

/-- The operations of one position (R130). -/
theorem foldl_chainAt (a acc : Elem) (i : Nat) :
    (chainAt i).foldl (chainStep a) acc =
      if i ≠ 2 ∧ i ≠ 4 then feMul (feMul acc acc) a else feMul acc acc := by
  rw [chainAt, apply_ite (List.foldl (chainStep a) acc)]
  simp only [List.foldl_cons, List.foldl_nil, chainStep]

/-- Position `i` is the last one done (R130). -/
theorem invAcc_step (a : Elem) {i : Nat} (hi : i < 254) :
    invAcc a i = if i ≠ 2 ∧ i ≠ 4 then feMul (feMul (invAcc a (i + 1)) (invAcc a (i + 1))) a
      else feMul (invAcc a (i + 1)) (invAcc a (i + 1)) := by
  obtain ⟨n, hn⟩ : ∃ n, 254 - i = n + 1 := ⟨253 - i, by omega⟩
  have hn' : 254 - (i + 1) = n := by omega
  rw [invAcc, hn, List.range'_succ, List.reverse_cons, List.flatMap_append, List.foldl_append, List.flatMap_singleton,
    foldl_chainAt, invAcc, hn']

/-- Settles O42: the accumulator is `invAcc`, and `registerCommandsFrame` is the rest. -/
theorem invCommand : Obligations.InvCommand := by
  intro d a s
  have hexec := exec_inv s d a
  obtain ⟨hregs, hbytes, -, -, -⟩ :=
    registerCommandsFrame d (.inv d a) s _ (.inr (.inr (.inr (.inr (.inr ⟨a, rfl⟩))))) hexec
  refine ⟨decode_wordValue (.inv d a), _, invAcc (s.reg a), hexec, invAcc_start _, fun i => invAcc_step _, ?_, hregs,
    hbytes, exec_sameHostSide hexec⟩
  rw [reg_setReg_same, feInv_eq_invAcc]

/-! ### The power that the chain computes -/

/-- The residue as an element of the field. -/
theorem cast_fe (x : Elem) : ((fe x : Int) : ZMod Config.p) = ((val x : Int) : ZMod Config.p) := ZMod.intCast_mod ..

/-- What an operation does to the exponent of the input that the accumulator holds (R132). -/
def chainExponent (e : Nat) : ChainOp → Nat
  | .square => e + e
  | .multiply => e + 1

/-- Squaring at every position and multiplying at all but 2 and 4 builds `p - 2` (R132). -/
theorem chainExponent_invChain : invChain.foldl chainExponent 1 = Config.p - 2 := by decide +kernel

/-- `x` holds the power `e` of the field element of `a`, computed without a wrap as `z`, in limbs small enough for the next
multiplication (R132, R133). -/
structure ExactPower (a : Elem) (e : Nat) (z : Vector Int 16) (x : Elem) : Prop where
  exact : ints x = z
  power : ((val x : Int) : ZMod Config.p) = ((val a : Int) : ZMod Config.p) ^ e
  bound : limbMax x ≤ 2 ^ 26

/-- The limbs of any product, exact or not, are nearly settled (R113, R133). -/
theorem limbMax_feMul (a b : Elem) : limbMax (feMul a b) ≤ 2 ^ 16 + 37 := by
  refine Finset.sup_le fun i _ => ?_
  rw [Fin.getElem_fin]
  by_cases h0 : i.val = 0
  · have h := feMul_limb0_bounds a b
    simp only [h0]
    omega
  · have h := settledAbove0_feCarry (feCarry (mulLow a b)) i i.isLt h0
    rw [← feMul_eq] at h
    omega

/-- Limbs of magnitude at most 2^26 keep MUL exact: `571·2^52 ≤ 2^62` (R133). -/
theorem mul_bound {a b : Elem} (ha : limbMax a ≤ 2 ^ 26) (hb : limbMax b ≤ 2 ^ 26) :
    571 * limbMax a * limbMax b ≤ 2 ^ 62 :=
  (Nat.mul_le_mul (Nat.mul_le_mul_left 571 ha) hb).trans (by decide)

theorem cast_val_feMul {a b : Elem} (h : 571 * limbMax a * limbMax b ≤ 2 ^ 62) :
    ((val (feMul a b) : Int) : ZMod Config.p) = ((val a : Int) : ZMod Config.p) * ((val b : Int) : ZMod Config.p) := by
  rw [← cast_fe, fe_feMul h, ZMod.intCast_mod, Int.cast_mul, cast_fe, cast_fe]

/-- Multiplying adds the exponents (R132, R133). -/
theorem ExactPower.mul {a x y : Elem} {e f : Nat} {u v : Vector Int 16} (hx : ExactPower a e u x)
    (hy : ExactPower a f v y) : ExactPower a (e + f) (mulZ u v) (feMul x y) where
  exact := by rw [ints_feMul (mul_bound hx.bound hy.bound), hx.exact, hy.exact]
  power := by rw [cast_val_feMul (mul_bound hx.bound hy.bound), hx.power, hy.power, pow_add]
  bound := (limbMax_feMul x y).trans (by decide)

section
variable {a : Elem} (ha : limbMax a ≤ 2 ^ 26)
include ha

theorem ExactPower.self : ExactPower a 1 (ints a) a :=
  ⟨rfl, (pow_one _).symm, ha⟩

/-- One operation keeps the accumulator an exact power of the input (R132, R133). -/
theorem ExactPower.step {e : Nat} {z : Vector Int 16} {x : Elem} (hx : ExactPower a e z x) (op : ChainOp) :
    ExactPower a (chainExponent e op) (chainStepZ (ints a) z op) (chainStep a x op) := by
  cases op with
  | square => exact hx.mul hx
  | multiply => exact hx.mul (.self ha)

theorem ExactPower.foldl_chainStep (ops : List ChainOp) : ∀ {e : Nat} {z : Vector Int 16} {x : Elem},
    ExactPower a e z x → ExactPower a (ops.foldl chainExponent e) (ops.foldl (chainStepZ (ints a)) z)
      (ops.foldl (chainStep a) x) := by
  induction ops with
  | nil => exact id
  | cons op ops ih =>
    intro e z x hx
    rw [List.foldl_cons, List.foldl_cons, List.foldl_cons]
    exact ih (.step ha hx op)

/-- Within the bound INV is exact and is the power `p - 2` (R132, R133). -/
theorem exactPower_feInv : ExactPower a (Config.p - 2) (invZ (ints a)) (feInv a) := by
  rw [← chainExponent_invChain]
  exact .foldl_chainStep ha invChain (.self ha)

end

/-! ### The field inverse -/

theorem fe_eq_zero_iff (x : Elem) : fe x = 0 ↔ ((val x : Int) : ZMod Config.p) = 0 := by
  rw [ZMod.intCast_zmod_eq_zero_iff_dvd, fe]
  exact (Int.dvd_iff_emod_eq_zero ..).symm

/-- Fermat's little theorem for the product of an element and its inverse (R132). -/
theorem fe_mul_fe_feInv {a : Elem} (ha : limbMax a ≤ 2 ^ 26) :
    fe a * fe (feInv a) % Config.p = if fe a = 0 then 0 else 1 := by
  split
  next h0 => rw [h0, Int.zero_mul, Int.zero_emod]
  next h0 =>
    have : Fact Config.p.Prime := ⟨Laws.p_prime⟩
    have hp : Config.p - 2 + 1 = Config.p - 1 := by decide +kernel
    have one : ((fe a * fe (feInv a) : Int) : ZMod Config.p) = (1 : Int) := by
      rw [Int.cast_mul, cast_fe, cast_fe, (exactPower_feInv ha).power, ← pow_succ', hp, Int.cast_one]
      exact ZMod.pow_card_sub_one_eq_one (mt (fe_eq_zero_iff a).2 h0)
    exact (ZMod.intCast_eq_intCast_iff _ _ _).1 one

theorem fe_feInv_of_zero {a : Elem} (ha : limbMax a ≤ 2 ^ 26) (h0 : fe a = 0) : fe (feInv a) = 0 := by
  rw [fe_eq_zero_iff] at h0 ⊢
  rw [(exactPower_feInv ha).power, h0]
  exact zero_pow (by decide)

/-- The last operation is a multiplication by the input (R130). -/
theorem feInv_eq_feMul (a : Elem) : ∃ x, feInv a = feMul x a :=
  ⟨_, (feInv_eq_invAcc a).trans (invAcc_step a (i := 0) (by decide))⟩

/-- Zero limbs stay zero limbs along the chain (R132). -/
theorem feInv_of_zero {a : Elem} (ha : ∀ i : Fin 16, a[i] = 0) : ∀ i : Fin 16, (feInv a)[i] = 0 := by
  obtain ⟨-, hzero⟩ := mulCommutesLimbForLimb
  refine List.foldlRecOn invChain (chainStep a) (motive := fun x : Elem => ∀ i : Fin 16, x[i] = 0) ha fun x hx op _ => ?_
  cases op with
  | square => exact hzero x x hx
  | multiply => exact hzero x a hx

/-- Settles O44: `exactPower_feInv`, Fermat's little theorem, the limbs of the last multiplication, and zero limbs. -/
theorem invIsTheFieldInverse : Obligations.InvIsTheFieldInverse := by
  refine ⟨fun a ha => ?_, fun a => feInv_of_zero⟩
  obtain ⟨hexact, hpower, -⟩ := exactPower_feInv ha
  obtain ⟨x, hx⟩ := feInv_eq_feMul a
  refine ⟨hexact, hpower, fun h0 => ?_, fe_feInv_of_zero ha, ?_, ?_⟩
  · rw [fe_mul_fe_feInv ha, if_neg h0]
  · rw [hx]
    exact fun i => settledAbove0_feCarry _ i i.isLt
  · rw [hx]
    exact feMul_limb0_bounds x a

/-! ### An element times its inverse -/

/-- PACK as one equation: within its bound it is the encoding of the canonical representative (R88). -/
theorem fePack_eq {n : Elem} {v : Nat} (h : limbMax n ≤ 2 ^ 62) (hv : fe n = v) : fePack n = packedOf v := by
  rw [← packedOf_packedInt (fePack n), Int.natCast_inj.1 ((packedInt_fePack h).trans hv)]

theorem limbMax_feUnpack_lt (b : Packed) : limbMax (feUnpack b) < 2 ^ 16 :=
  (Finset.sup_lt_iff (by decide)).2 fun i _ => by
    obtain ⟨hlt, -⟩ := feUnpack_toNat_lt b i i.isLt
    rwa [Fin.getElem_fin, feUnpack_toInt, Int.natAbs_natCast]

/-- Settles O45: packing encodes the residue of the product, which `fe_mul_fe_feInv` gives. -/
theorem elementTimesInversePacksToOne : Obligations.ElementTimesInversePacksToOne := by
  have pack (b : Packed) : fePack (feMul (feUnpack b) (feInv (feUnpack b))) =
      packedOf (if packedInt b % 2 ^ 255 % Config.p = 0 then 0 else 1) := by
    have hb : limbMax (feUnpack b) ≤ 2 ^ 26 := (limbMax_feUnpack_lt b).le.trans (by decide)
    have hzero : fe (feUnpack b) = 0 ↔ packedInt b % 2 ^ 255 % Config.p = 0 := by
      rw [fe, val_feUnpack, ← Int.natCast_mod, Int.natCast_eq_zero]
    refine fePack_eq ((limbMax_feMul _ _).trans (by decide)) ?_
    rw [fe_feMul (mul_bound hb (exactPower_feInv hb).bound), fe_mul_fe_feInv hb]
    simp only [hzero]
    split <;> rfl
  exact ⟨fun b h => by rw [pack, if_neg h], fun b h => by rw [pack, if_pos h]⟩

end Sys2Proof.Machine

/-! ## Proofs of spec/45_swap.md: the conditional swap, its command and frame, and the command issued twice -/

namespace Sys2Proof.Machine

/-! ### The swap of two elements -/

/-- The mask of `k = 0` is 0: both elements keep their limbs (R143). -/
theorem feSwap_zero (x y : Elem) : feSwap x y 0 = (x, y) := Prod.ext (feSwap_fst x y 0) (feSwap_snd x y 0)

/-- The mask of `k = 1` is all ones: the elements change places (R143). -/
theorem feSwap_one (x y : Elem) : feSwap x y 1 = (y, x) := Prod.ext (feSwap_fst x y 1) (feSwap_snd x y 1)

/-! ### The registers after the command -/

/-- With `k = 0` SWAP rewrites both registers with the values they held (R141). -/
theorem reg_exec_swap_zero {a b : EReg} {s t : State} (h : exec (.swap a b 0) s = .next t) (r : EReg) :
    t.reg r = s.reg r := by
  rw [exec_swap, feSwap_zero] at h
  cases h
  rw [reg_setReg, reg_setReg]
  split_ifs with hb ha
  · rw [hb]
  · rw [ha]
  · rfl

/-- With `k = 1` SWAP permutes the registers by the transposition of `a` and `b`, the identity when `a = b` (R141). -/
theorem reg_exec_swap_one {a b : EReg} {s t : State} (h : exec (.swap a b 1) s = .next t) (r : EReg) :
    t.reg r = s.reg (Equiv.swap a b r) := by
  rw [exec_swap, feSwap_one] at h
  cases h
  by_cases hb : b = r
  · rw [← hb, reg_setReg_same, Equiv.swap_apply_right]
  rw [reg_setReg_ne _ hb]
  by_cases ha : a = r
  · rw [← ha, reg_setReg_same, Equiv.swap_apply_left]
  · rw [reg_setReg_ne _ ha, Equiv.swap_apply_of_ne_of_ne (Ne.symm ha) (Ne.symm hb)]

/-! ### The frame and the command -/

/-- Settles O23: the destinations of SWAP are `E[a]` and `E[b]`. -/
theorem swapFrame : Obligations.SwapFrame := by
  intro a b k s t h
  have same : ∀ l, l ∉ cmdWrites (.swap a b k) → SameAt t s l := fun l hl => (exec_sameAt_of_not_mem_writes h hl).symm
  obtain ⟨hhost, hans, hres⟩ := exec_sameHostSide h
  exact ⟨fun r ha hb => same (.reg r) (by simp [cmdWrites, ha, hb]), fun x => same (.byte x) (by simp [cmdWrites]),
    hhost.symm, hans.symm, hres.symm⟩

/-- Settles O46: the registers of either `k` at `a` and at `b`, and `swapFrame` is the rest. -/
theorem swapCommand : Obligations.SwapCommand := by
  intro a b k s
  obtain ⟨t, hexec⟩ := everyCommandCompletes (.swap a b k) s
  obtain ⟨hregs, hbytes, -, -, -⟩ := swapFrame a b k s t hexec
  refine ⟨decode_wordValue (.swap a b k), t, hexec, ?_, ?_, hregs, hbytes, exec_sameHostSide hexec⟩
  · rintro rfl
    rw [reg_exec_swap_one hexec, reg_exec_swap_one hexec, Equiv.swap_apply_left, Equiv.swap_apply_right]
    exact ⟨rfl, rfl⟩
  · rintro rfl
    exact ⟨reg_exec_swap_zero hexec a, reg_exec_swap_zero hexec b⟩

/-! ### The command issued twice -/

/-- The registers and what the host can see are the whole state. -/
theorem state_eq_of_reg_of_hostView {s t : State} (hreg : ∀ r, s.reg r = t.reg r) (hview : HostView s t) : s = t := by
  obtain ⟨hpm, hhost, hans, hres⟩ := hview
  have helements : s.elements = t.elements := by
    ext r hr : 1
    exact hreg ⟨r, hr⟩
  cases s
  cases t
  rw [State.mk.injEq]
  exact ⟨helements, hpm, hhost, hans, hres⟩

/-- Settles O47: `feSwap_zero` and `feSwap_one`, and for the command that a transposition is its own inverse. -/
theorem swapLaws : Obligations.SwapLaws := by
  refine ⟨fun x y => ⟨feSwap_zero x y, feSwap_one x y, by rw [feSwap_one, feSwap_one]⟩, fun a b s t h => ?_⟩
  obtain ⟨u, hu⟩ := everyCommandCompletes (.swap a b 1) t
  have hview : HostView s u := (exec_hostView (by simp) h).trans (exec_hostView (by simp) hu)
  have hreg : ∀ r, s.reg r = u.reg r := fun r => by
    rw [reg_exec_swap_one hu, reg_exec_swap_one h, Equiv.swap_apply_self]
  rw [hu, state_eq_of_reg_of_hostView hreg hview]

end Sys2Proof.Machine

/-! ## Proofs of spec/70_reset_and_hazards.md: runs, time and accesses, result bounds, the field machine -/

namespace Sys2Proof.Machine

/-! ### Reset and runs of the host's stream -/

/-- Both forms of Reset perform `resetEngine` on the state without the transaction (R170). -/
theorem step_of_reset {s : State} {x : HostTxn} {rest : List HostTxn} (hs : s.host = x :: rest)
    (hx : x = .reset ∨ ∃ w, x = .resetDuring w) : ∃ c, step s = .next (resetEngine c (s.setHost rest)) := by
  obtain rfl | ⟨w, rfl⟩ := hx
  · exact ⟨none, step_of_cons hs⟩
  · exact ⟨some w, step_of_cons hs⟩

/-- Settles O9: `resetEngine` leaves the stream and the answers alone, counts, and makes a canonical memory. -/
theorem resetLeavesTheEngineReady : Obligations.ResetLeavesTheEngineReady := by
  intro s x rest hs hx
  obtain ⟨c, hstep⟩ := step_of_reset hs hx
  exact ⟨_, hstep, resetEngine_host _ c, resetEngine_answers _ c, resetEngine_resets _ c, resetEngine_inv c _⟩

/-- Settles O12: by induction on the stream, each step taking one transaction off it. -/
theorem streamRunsToItsEnd : Obligations.StreamRunsToItsEnd := by
  intro s
  induction hs : s.host generalizing s with
  | nil => exact ⟨s, rfl, hs⟩
  | cons x rest ih =>
    obtain ⟨u, hu⟩ := step_completes s
    obtain ⟨t, hrun, hend⟩ := ih u (step_host hs hu)
    exact ⟨t, (run_succ_of_step hu _).trans hrun, hend⟩

/-! ### Time and accesses -/

theorem read_mem_cmdAccesses {i : Instr} {l : Loc} : .read l ∈ cmdAccesses i ↔ l ∈ cmdReads i := by
  simp [cmdAccesses]

theorem write_mem_cmdAccesses {i : Instr} {l : Loc} : .write l ∈ cmdAccesses i ↔ l ∈ cmdWrites i := by
  simp [cmdAccesses]

/-- The shape of the accesses to a whole slot: its 32 bytes in rising order, whichever slot it is (R41, R47). -/
def slotShape (isWrite : Bool) : List (Bool × Option Nat) := (List.range 32).map fun j => (isWrite, some j)

/-- The shape of the accesses of the commands of an opcode: the sources, then the destinations (R47, R178). -/
def accessShape : Opcode → List (Bool × Option Nat)
  | .unpack => slotShape false ++ [(true, none)]
  | .pack => (false, none) :: slotShape true
  | .add | .sub | .mul => [(false, none), (false, none), (true, none)]
  | .carry | .inv => [(false, none), (true, none)]
  | .swap => [(false, none), (false, none), (true, none), (true, none)]

/-- Byte `j` of any slot stands at an address that is `j` modulo 32 (R41). -/
theorem slotByte_mod (n : Slot) {j : Nat} (h : j < 32) : (byteAddr (slotAddr n) j).toNat % 32 = j := by
  rw [slotByte_toNat n h]
  omega

/-- An access `acc` to each byte of a slot, in its shape: which slot it is does not show. -/
theorem shape_slotLocs (n : Slot) {acc : Loc → Access} {isWrite : Bool}
    (hacc : ∀ a, (acc (.byte a)).shape = (isWrite, some (a.toNat % 32))) :
    ((slotLocs n).map acc).map Access.shape = slotShape isWrite := by
  rw [slotLocs, List.map_map, List.map_map, slotShape]
  refine List.map_congr_left fun j hj => (hacc _).trans ?_
  rw [slotByte_mod n (List.mem_range.1 hj)]

/-- But for register and slot numbers, the accesses of a command are given by its opcode (R47, R178). -/
theorem shape_cmdAccesses (i : Instr) : (cmdAccesses i).map Access.shape = accessShape i.opcode := by
  rw [cmdAccesses, List.map_append]
  cases i with
  | unpack d a => exact congrArg (· ++ _) (shape_slotLocs a fun _ => rfl)
  | pack d a => exact congrArg (_ :: ·) (shape_slotLocs d fun _ => rfl)
  | add | sub | mul | carry | inv | swap => rfl

/-- Settles O20: time and shape are functions of the opcode, and a slot's bytes are those of `byte_mem_slotLocs`. -/
theorem timeAndAccessesIgnoreData : Obligations.TimeAndAccessesIgnoreData := by
  refine ⟨fun i j h => ⟨congrArg Config.latency h, ?_⟩, fun _ _ => rfl, fun d a x => ?_, fun d a x => ?_⟩
  · rw [shape_cmdAccesses, shape_cmdAccesses, h]
  · exact read_mem_cmdAccesses.trans byte_mem_slotLocs
  · exact write_mem_cmdAccesses.trans byte_mem_slotLocs

/-! ### The result bounds of the commands -/

section
variable {a b : Elem} (h : limbMax a + limbMax b < 2 ^ 63)
include h

theorem natAbs_add_natAbs_lt_of_bound (i : Fin 16) : a[i].toInt.natAbs + b[i].toInt.natAbs < 2 ^ 63 :=
  (Nat.add_le_add (natAbs_le_limbMax a i.isLt) (natAbs_le_limbMax b i.isLt)).trans_lt h

/-- Within the bound of R174 the sum is exact and its magnitude at most the sum of the magnitudes (R104). -/
theorem feAdd_of_bound : val (feAdd a b) = val a + val b ∧ limbMax (feAdd a b) ≤ limbMax a + limbMax b := by
  obtain ⟨hadd, -⟩ := addAndSubAreExactInRange a b
  obtain ⟨hval, -, hmax⟩ := hadd fun i => by
    have := natAbs_add_natAbs_lt_of_bound h i
    omega
  exact ⟨hval, Finset.sup_le fun i _ =>
    hmax _ _ (fun j => ⟨natAbs_le_limbMax a j.isLt, natAbs_le_limbMax b j.isLt⟩) i⟩

/-- Within the bound of R174 the difference is exact and its magnitude at most the sum of the magnitudes (R104). -/
theorem feSub_of_bound : val (feSub a b) = val a - val b ∧ limbMax (feSub a b) ≤ limbMax a + limbMax b := by
  obtain ⟨-, hsub⟩ := addAndSubAreExactInRange a b
  obtain ⟨hval, -, hmax⟩ := hsub fun i => by
    have := natAbs_add_natAbs_lt_of_bound h i
    omega
  exact ⟨hval, Finset.sup_le fun i _ =>
    hmax _ _ (fun j => ⟨natAbs_le_limbMax a j.isLt, natAbs_le_limbMax b j.isLt⟩) i⟩

end

/-- Within the bound of R174 PACK's bytes are canonical (R88). -/
theorem canonical_fePack {n : Elem} (h : limbMax n ≤ 2 ^ 62) : Canonical (fePack n) := by
  have hint := packedInt_fePack h
  obtain ⟨-, hlt⟩ := fe_range n
  omega

/-- Settles O48: each command's destination holds the result of its function, whose bounds are those of R82, R88, R104,
R113, R122 and R133. -/
theorem resultLimbsAreBounded : Obligations.ResultLimbsAreBounded := by
  obtain ⟨unpack_bounds, -, -⟩ := unpackValueAndBounds
  obtain ⟨-, mul_bounds⟩ := mulIsTheFieldProduct
  obtain ⟨inv_bounds, -⟩ := invIsTheFieldInverse
  refine ⟨?_, ?_, ?_, ?_, ?_, ?_, ?_⟩
  · rintro d a s t ⟨⟩
    rw [reg_setReg_same]
    refine ⟨fun i => ?_, ?_⟩
    · obtain ⟨lo, hi, -⟩ := unpack_bounds (s.slot a) i
      exact ⟨lo, hi⟩
    · obtain ⟨-, -, hi15⟩ := unpack_bounds (s.slot a) 15
      exact hi15 rfl
  · rintro d a b s t h ⟨⟩
    rw [reg_setReg_same]
    exact (feAdd_of_bound h).2
  · rintro d a b s t h ⟨⟩
    rw [reg_setReg_same]
    exact (feSub_of_bound h).2
  · rintro d a b s t h ⟨⟩
    rw [reg_setReg_same]
    obtain ⟨-, hlimbs, hlimb0, -⟩ := mul_bounds _ _ h
    exact ⟨hlimbs, hlimb0⟩
  · rintro d a s t - ⟨⟩
    rw [reg_setReg_same]
    exact ⟨fun i => settledAbove0_feCarry _ i i.isLt, natAbs_feCarry_limb0_lt _⟩
  · rintro d a s t h ⟨⟩
    rw [reg_setReg_same]
    obtain ⟨-, -, -, -, hlimbs, hlimb0⟩ := inv_bounds _ h
    exact ⟨hlimbs, hlimb0⟩
  · rintro d a s t h ⟨⟩
    rw [slot_setSlot_same]
    exact canonical_fePack h

/-! ### The field view of a state -/

/-- The element of the field that limbs represent (R17). -/
abbrev fieldVal (x : Elem) : ZMod Config.p := (val x : Int)

theorem fieldView_regs (s : State) (r : EReg) : (fieldView s).regs[r] = fieldVal (s.reg r) := by
  simp [fieldView]

theorem fieldView_slots (s : State) (n : Slot) : (fieldView s).slots[n] = packedInt (s.slot n) := by
  simp [fieldView]

/-- Writing a register writes its element in the view. -/
theorem fieldView_setReg (s : State) (d : EReg) (x : Elem) :
    fieldView (s.setReg d x) = { fieldView s with regs := (fieldView s).regs.set d (fieldVal x) } := by
  rw [fieldView, FieldState.mk.injEq]
  refine ⟨?_, rfl⟩
  ext r hr : 1
  rw [Vector.getElem_ofFn, Vector.getElem_set]
  by_cases h : d = ⟨r, hr⟩
  · subst h
    rw [reg_setReg_same, if_pos rfl]
  · rw [reg_setReg_ne s h, if_neg fun e => h (Fin.ext e)]
    exact (fieldView_regs s ⟨r, hr⟩).symm

/-- Writing a slot writes its integer in the view. -/
theorem fieldView_setSlot (s : State) (d : Slot) (v : Packed) :
    fieldView (s.setSlot d v) = { fieldView s with slots := (fieldView s).slots.set d (packedInt v) } := by
  rw [fieldView, FieldState.mk.injEq]
  refine ⟨rfl, ?_⟩
  ext n hn : 1
  rw [Vector.getElem_ofFn, Vector.getElem_set]
  by_cases h : d = ⟨n, hn⟩
  · subst h
    rw [slot_setSlot_same, if_pos rfl]
  · rw [slot_setSlot_ne s h, if_neg fun e => h (Fin.ext e)]
    exact (fieldView_slots s ⟨n, hn⟩).symm

/-! ### The commands in the field -/

/-- UNPACK drops bit 255 (R82). -/
theorem fieldVal_feUnpack (b : Packed) : fieldVal (feUnpack b) = ((packedInt b % 2 ^ 255 : Nat) : ZMod Config.p) := by
  rw [fieldVal, val_feUnpack, Int.cast_natCast]

/-- PACK encodes the canonical representative of the element (R88). -/
theorem packedInt_fePack_eq_val {n : Elem} (h : limbMax n ≤ 2 ^ 62) : packedInt (fePack n) = (fieldVal n).val := by
  have : NeZero Config.p := ⟨by decide⟩
  have hval : (((fieldVal n).val : Nat) : Int) = fe n := ZMod.val_intCast (val n)
  exact Int.natCast_inj.1 ((packedInt_fePack h).trans hval.symm)

theorem fieldVal_feAdd {a b : Elem} (h : limbMax a + limbMax b < 2 ^ 63) :
    fieldVal (feAdd a b) = fieldVal a + fieldVal b := by
  rw [fieldVal, (feAdd_of_bound h).1, Int.cast_add]

theorem fieldVal_feSub {a b : Elem} (h : limbMax a + limbMax b < 2 ^ 63) :
    fieldVal (feSub a b) = fieldVal a - fieldVal b := by
  rw [fieldVal, (feSub_of_bound h).1, Int.cast_sub]

/-- CARRY changes no element (R122). -/
theorem fieldVal_feCarry {x : Elem} (h : limbMax x ≤ 2 ^ 62) : fieldVal (feCarry x) = fieldVal x := by
  rw [fieldVal, ← cast_fe, (exactPass_of_bound h).fe_feCarry, cast_fe]

/-- SWAP exchanges the elements with `k = 1`, and writes back what it read with `k = 0` (R143). -/
theorem fieldView_swap (a b : EReg) (k : BitVec 1) (s : State) :
    fieldView ((s.setReg a (feSwap (s.reg a) (s.reg b) k).1).setReg b (feSwap (s.reg a) (s.reg b) k).2)
      = fieldExec (.swap a b k) (fieldView s) := by
  rw [fieldView_setReg, fieldView_setReg]
  obtain rfl | rfl := bit_cases k
  · rw [feSwap_zero, ← fieldView_regs, ← fieldView_regs]
    simp only [Fin.getElem_fin, Vector.set_getElem_self]
    rfl
  · rw [feSwap_one, ← fieldView_regs, ← fieldView_regs]
    rfl

/-- Settles O49: every command writes what the field machine writes, one register, one slot, or the two of SWAP. -/
theorem engineImplementsTheFieldMachine : Obligations.EngineImplementsTheFieldMachine := by
  intro i s h
  cases i with
  | unpack d a =>
    refine ⟨_, exec_unpack s d a, ?_⟩
    rw [fieldView_setReg, fieldVal_feUnpack, fieldExec, fieldView_slots]
  | pack d a =>
    refine ⟨_, exec_pack s d a, ?_⟩
    rw [fieldView_setSlot, packedInt_fePack_eq_val h, fieldExec, fieldView_regs]
  | add d a b =>
    refine ⟨_, exec_add s d a b, ?_⟩
    rw [fieldView_setReg, fieldVal_feAdd h, fieldExec, fieldView_regs, fieldView_regs]
  | sub d a b =>
    refine ⟨_, exec_sub s d a b, ?_⟩
    rw [fieldView_setReg, fieldVal_feSub h, fieldExec, fieldView_regs, fieldView_regs]
  | mul d a b =>
    refine ⟨_, exec_mul s d a b, ?_⟩
    rw [fieldView_setReg, fieldVal, cast_val_feMul h, fieldExec, fieldView_regs, fieldView_regs]
  | carry d a =>
    refine ⟨_, exec_carry s d a, ?_⟩
    rw [fieldView_setReg, fieldVal_feCarry h, fieldExec, fieldView_regs]
  | inv d a =>
    refine ⟨_, exec_inv s d a, ?_⟩
    rw [fieldView_setReg, fieldVal, (exactPower_feInv h).power, fieldExec, fieldView_regs]
  | swap a b k => exact ⟨_, exec_swap s a b k, fieldView_swap a b k s⟩

end Sys2Proof.Machine

namespace Sys2Proof.Machine

/-! ### The words written out in the spec -/

/-- The reason a word is illegal is R64's, read off its fields once no row selects it. -/
theorem decode_eq_illegal_iff {w : CmdWord} {why : IllegalWord} :
    decode w = .illegal why ↔ (∀ r ∈ cmdRows, ¬ r.selects w = true) ∧ illegalReason w = why := by
  rw [decode, ← List.find?_eq_none]
  cases cmdRows.find? (fun r => r.selects w) <;> simp

/-- Settles O1: each legal word is the encoding of its command (V48 to V58), and no row selects the illegal ones, whose
fields show the reason (V59 to V63). -/
theorem specWordsDecode : Obligations.SpecWordsDecode :=
  ⟨decode_encode (.unpack 0 0), decode_encode (.unpack 1 1), decode_encode (.pack 1 1), decode_encode (.add 2 0 1),
    decode_encode (.sub 2 2 1), decode_encode (.mul 2 1 0), decode_encode (.sqr 4 0), decode_encode (.carry 3 2),
    decode_encode (.inv 1 0), decode_encode (.inv 7 7), decode_encode (.swap 0 1 1), decode_encode (.swap 0 1 0),
    decode_encode (.swap 3 3 1),
    decode_eq_illegal_iff.2 (by decide), decode_eq_illegal_iff.2 (by decide), decode_eq_illegal_iff.2 (by decide),
    decode_eq_illegal_iff.2 (by decide), decode_eq_illegal_iff.2 (by decide), decode_eq_illegal_iff.2 (by decide),
    decode_eq_illegal_iff.2 (by decide), decode_eq_illegal_iff.2 (by decide)⟩

end Sys2Proof.Machine
